-- ==== Sys2Proof/Word.lean ====
section
/-! DEFINITION. The content of one memory cell (20_memory.md R34) is one signed integer, never a bit pattern: the
machine has no bytes, bit fields or unsigned view of a cell (R39, 00_scope.md section 5). It is Lean's `Int`; the range it
must lie in depends on the parameter W (R5). -/

namespace Sys2Proof

/-- `MIN_CELL` for a finite cell width of `w` bits (R5). -/
def minCell (w : Nat) : Int := -((2 ^ (w - 1) : Nat) : Int)

/-- `MAX_CELL` for a finite cell width of `w` bits (R5). -/
def maxCell (w : Nat) : Int := ((2 ^ (w - 1) : Nat) : Int) - 1

end Sys2Proof
end

