-- ==== Sys2Proof/Config.lean ====
section
/-! DEFINITION. The implementation parameters the spec names (00_scope.md R5 to R10), as plain data.
They are not state (10_state.md R23). Every operation of the machine takes them as an argument; the setting the
spec takes is `Machine.params` (Machine/Params.lean). The spec leaves no result undefined, so there is no free value here. -/

namespace Sys2Proof

/-- R6: what happens when an exact result lies outside the cell range. -/
inductive OverflowPolicy where
  /-- Raise OverflowFault (the setting the spec takes). -/
  | fault
  /-- Store the result modulo 2^W. -/
  | wrap
deriving DecidableEq, Repr

/-- R10: how the second parameter of operations 5 and 6 is resolved. -/
inductive JumpTargetKind where
  /-- As an address, which becomes the program counter (the source's rule, the setting the spec takes, R75). -/
  | address
  /-- As a read value, which becomes the program counter (the marked variant of R78). -/
  | value
deriving DecidableEq, Repr

/-- The parameters of R5 to R10. `none` in an `Option` field is the spec's `infinity`. -/
structure Params where
  /-- `W`, the cell width in bits (R5). -/
  width : Option Nat
  /-- `OVERFLOW_POLICY` (R6). -/
  overflowPolicy : OverflowPolicy
  /-- `MEM_LIMIT`, the number of cells (R7). -/
  memLimit : Option Nat
  /-- `IN_DEPTH` (R8). -/
  inDepth : Option Nat
  /-- `OUT_DEPTH` (R8). -/
  outDepth : Option Nat
  /-- `STRICT_DECODE` (R9). -/
  strictDecode : Bool
  /-- `JUMP_TARGET_KIND` (R10). -/
  jumpTargetKind : JumpTargetKind
deriving DecidableEq, Repr

end Sys2Proof
end

