-- ==== Sys2Proof/Machine/Params.lean ====
section
/-! DEFINITION. The parameter setting the spec takes, and the range checks that rest on the parameters
(00_scope.md R5 to R8, 10_state.md R16). -/

namespace Sys2Proof.Machine

/-- The values the spec takes for its parameters (R5 to R10): W = 64, OVERFLOW_POLICY = fault, MEM_LIMIT, IN_DEPTH
and OUT_DEPTH infinite, STRICT_DECODE = false, JUMP_TARGET_KIND = address.
DESIGN CHOICE (the spec's decisions D2, D5, D11, D12, D19): log entries 2 to 5. -/
def params : Params :=
  { width := some 64
    overflowPolicy := .fault
    memLimit := none
    inDepth := none
    outDepth := none
    strictDecode := false
    jumpTargetKind := .address }

/-- `MIN_CELL <= v <= MAX_CELL` (R5); always true when W is infinite. -/
def inCell (p : Params) (v : Int) : Bool :=
  match p.width with
  | none => true
  | some w => decide (minCell w ≤ v) && decide (v ≤ maxCell w)

/-- `wrap_W(r)` (R6): the integer of the cell range congruent to `r` modulo 2^W. -/
def wrapCell (w : Nat) (r : Int) : Int :=
  (r - minCell w) % ((2 ^ w : Nat) : Int) + minCell w

/-- Whether `t` is a value the program counter can hold, `0..MAX_CELL` with MAX_CELL = 2^(W-1) - 1 (R5, R15, R16).
The comparison is one of naturals, which Lean's kernel decides without counting down from the bound. -/
def pcFits (p : Params) (t : Nat) : Bool :=
  match p.width with
  | none => true
  | some w => decide (t < 2 ^ (w - 1))

/-- Whether address `a` lies below `MEM_LIMIT` (R7). -/
def inMemory (p : Params) (a : Nat) : Bool :=
  match p.memLimit with
  | none => true
  | some limit => decide (a < limit)

/-- `full(q)` for a queue of the given depth (46_io_channel.md R93). -/
def queueFull (depth : Option Nat) (q : List Int) : Bool :=
  match depth with
  | none => false
  | some d => decide (q.length = d)

/-- Whether a queue keeps to its depth (10_state.md R20, R21). -/
def queueFits (depth : Option Nat) (q : List Int) : Bool :=
  match depth with
  | none => true
  | some d => decide (q.length ≤ d)

end Sys2Proof.Machine
end

