-- ==== Sys2Proof/Machine/State.lean ====
section
/-! DEFINITION. The state of one instance (10_state.md R12 to R22), the ways the model can stop, and the machine
right after reset (R32). Everything is plain data. -/

namespace Sys2Proof.Machine

/-- The faults an instance can raise (60_exceptions.md R104). Raising one is a next state with `State.fault` set (R112),
never a stop of the model. -/
inductive FaultKind where
  /-- A resolved address is negative (R105). -/
  | addressFault
  /-- The opcode word is no instruction (R106). -/
  | invalidOpcodeFault
  /-- Input from an empty queue that the host has closed (R107). -/
  | inputStarvationFault
  /-- A reserved mode digit, or immediate mode on an address-kind parameter (R108). -/
  | invalidModeFault
  /-- An exact result outside the cell range, or a program counter beyond MAX_CELL (R109). -/
  | overflowFault
deriving DecidableEq, Repr

/-- Memory as plain data: (address, value) pairs, addresses strictly rising, no pair with value 0; an address not
listed holds 0 (R13). The unit is the cell, which has no bytes (R34, R39; log entry 1). -/
abbrev Memory := List (Nat × Int)

/-- The state tuple of R12, and the level of the host's input `in_closed` (R22, log entry 8). -/
structure State where
  /-- `M` (R13). -/
  mem : Memory
  /-- `extent` (R14). -/
  extent : Nat
  /-- `pc` (R15). -/
  pc : Nat
  /-- `rb` (R17). -/
  rb : Int
  /-- `halted` (R18). -/
  halted : Bool
  /-- `fault`, `none` for the spec's `None` (R19). -/
  fault : Option FaultKind
  /-- `inq`, oldest first (R20). -/
  inq : List Int
  /-- `outq`, oldest first (R21). -/
  outq : List Int
  /-- `in_closed` (R22). -/
  inClosed : Bool
deriving DecidableEq, Repr

/-- The ways the machine could stop with a fault OF THE MODEL. There are none: the spec describes the entry of every
fault of its own (R112), so a raised fault is a next state. -/
inductive Fault where
deriving DecidableEq, Repr

/-- The ways a step can have no next state. Under `params`, the setting the spec takes, neither `memLimit` nor
`pcBeyondMax` is ever raised. -/
inductive Refusal where
  /-- Raised by an arm of `exec` that has no meaning yet; there is none. Safe. -/
  | notModelled (mnemonic : String)
  /-- Raised by memory reads and writes at an address at or beyond a finite MEM_LIMIT: "no step" (R7, R35, R36). Safe. -/
  | memLimit
  /-- Raised by the update of the program counter beyond MAX_CELL under OVERFLOW_POLICY = wrap: "a model under `wrap`
  refuses the step" (R16). Safe. -/
  | pcBeyondMax
deriving DecidableEq, Repr

/-- The machine right after `reset(P, Z)` with the empty Program and no padding (R32, R125, R127); `resetWith` of
Machine/HostPort.lean is the whole transaction. `rb = 0` and the empty queues are the spec's decision D6
(log entries 10 and 11). -/
def State.reset : State :=
  { mem := []
    extent := 0
    pc := 0
    rb := 0
    halted := false
    fault := none
    inq := []
    outq := []
    inClosed := false }

end Sys2Proof.Machine
end

