-- ==== Sys2Proof/Machine/Memory.lean ====
section
/-! DEFINITION. The tape as a function on addresses, kept in one canonical form (10_state.md R13). -/

namespace Sys2Proof.Machine

/-- What an address that is not listed reads as: 0 (R13). -/
def unlistedCell : Int := 0

/-- `M[a]`. -/
def Memory.read (a : Nat) : Memory → Int
  | [] => unlistedCell
  | (b, x) :: rest => if a = b then x else Memory.read a rest

/-- `M[a] <- v`, in canonical form: writing what an unlisted address reads as removes the entry. -/
def Memory.write (a : Nat) (v : Int) : Memory → Memory
  | [] => if v = unlistedCell then [] else [(a, v)]
  | (b, x) :: rest =>
    if a < b then (if v = unlistedCell then (b, x) :: rest else (a, v) :: (b, x) :: rest)
    else if a = b then (if v = unlistedCell then rest else (a, v) :: rest)
    else (b, x) :: Memory.write a v rest

/-- The canonical form: addresses strictly rising, no entry equal to what an unlisted address reads as. -/
def Memory.wf : Memory → Bool
  | [] => true
  | (a, v) :: rest => decide (v ≠ unlistedCell) && rest.all (fun c => decide (a < c.1)) && Memory.wf rest

/-- Every listed cell is below `extent`: cells at `extent` and above hold 0 (R14). -/
def Memory.below (extent : Nat) (m : Memory) : Bool := m.all (fun c => decide (c.1 < extent))

/-- Every listed cell holds a value of the cell range (R13). -/
def Memory.inRange (p : Params) (m : Memory) : Bool := m.all (fun c => inCell p c.2)

/-- The tape that holds the listed values from address `a` on and 0 elsewhere (R42, R125). -/
def Memory.ofCells (a : Nat) : List Int → Memory
  | [] => []
  | v :: rest => if v = unlistedCell then Memory.ofCells (a + 1) rest else (a, v) :: Memory.ofCells (a + 1) rest

end Sys2Proof.Machine
end

