-- ==== Sys2Proof/Machine/Ops.lean ====
section
/-! DEFINITION. The named operations on the state, the results a piece of a step can have, memory access
(20_memory.md R35, R36), fault entry (60_exceptions.md R112; there is no return from a fault, R113) and the
update of the program counter (45_engine.md R87, 10_state.md R16). -/

namespace Sys2Proof.Machine

/-- `extent <- max(extent, a + 1)` (R14). -/
def touch (a : Nat) (s : State) : State := { s with extent := max s.extent (a + 1) }

/-- `M[a] <- v`. -/
def setCell (a : Nat) (v : Int) (s : State) : State := { s with mem := Memory.write a v s.mem }

/-- `pc <- t`. -/
def setPc (t : Nat) (s : State) : State := { s with pc := t }

/-- `rb <- v`. -/
def setRb (v : Int) (s : State) : State := { s with rb := v }

/-- `halted <- true`. -/
def setHalted (s : State) : State := { s with halted := true }

/-- The input queue replaced (R93). -/
def setInq (q : List Int) (s : State) : State := { s with inq := q }

/-- The output queue replaced (R93). -/
def setOutq (q : List Int) (s : State) : State := { s with outq := q }

/-- Fault entry (R112): `fault <- F`, and nothing else is saved or changed. The state given is the one before the
instruction's write, so the program counter stays at the faulting instruction. -/
def takeFault (f : FaultKind) (s : State) : State := { s with fault := some f }

/-- The derived status `running` (R29). -/
def running (s : State) : Bool := !s.halted && s.fault.isNone

/-- The numeric code of the fault status (R104). -/
def faultCode : Option FaultKind → Nat
  | none => 0
  | some .addressFault => 1
  | some .invalidOpcodeFault => 2
  | some .inputStarvationFault => 3
  | some .invalidModeFault => 4
  | some .overflowFault => 5

/-- The result of a piece of a step. -/
inductive Act (α : Type) where
  /-- It is done, with a value and the state after it. -/
  | ok (v : α) (s : State)
  /-- `raise F` (R86); the state is the one before the instruction's write. -/
  | raise (f : FaultKind) (s : State)
  /-- `stall` (R88). -/
  | stall (s : State)
  /-- There is no step (R7, R16). -/
  | refuse (r : Refusal)
deriving DecidableEq, Repr

/-- Go on after `ok`; a fault, stall or refusal ends the step at once. -/
def Act.bind {α β : Type} (x : Act α) (f : α → State → Act β) : Act β :=
  match x with
  | .ok v s => f v s
  | .raise k s => .raise k s
  | .stall s => .stall s
  | .refuse r => .refuse r

/-- The step's next state: a raised fault enters (R112), a stall holds (R88). -/
def Act.outcome {α : Type} (x : Act α) : Host.Outcome State Fault Refusal :=
  match x with
  | .ok _ s => .next s
  | .raise f s => .next (takeFault f s)
  | .stall s => .next s
  | .refuse r => .refused r

/-- `MemRead(addr, 1)` (R35). -/
def memRead (p : Params) (addr : Int) (s : State) : Act Int :=
  if addr < 0 then .raise .addressFault s
  else if inMemory p addr.toNat then .ok (Memory.read addr.toNat s.mem) (touch addr.toNat s)
  else .refuse .memLimit

/-- `MemWrite(addr, 1, v)` (R36). -/
def memWrite (p : Params) (addr : Int) (v : Int) (s : State) : Act Unit :=
  if addr < 0 then .raise .addressFault s
  else if inMemory p addr.toNat then .ok () (setCell addr.toNat v (touch addr.toNat s))
  else .refuse .memLimit

/-- The last action of an instruction: the program counter becomes `t` in `after`, the state with the instruction's
effect. A `t` beyond MAX_CELL is an overflow (R16); its fault leaves the state `before` the effect, since every
fault is precise (R112, log entry 9). -/
def finish (p : Params) (t : Nat) (before after : State) : Act Unit :=
  if pcFits p t then .ok () (setPc t after)
  else match p.overflowPolicy with
    | .fault => .raise .overflowFault before
    | .wrap => .refuse .pcBeyondMax

/-- The cells stored from address `a` on, as writes do it. -/
def loadCells (a : Nat) : List Int → State → State
  | [], s => s
  | v :: rest, s => loadCells (a + 1) rest (setCell a v (touch a s))

end Sys2Proof.Machine
end

