-- ==== Sys2Proof/Machine/Flags.lean ====
section
/-! DEFINITION. There are no flags or condition codes (10_state.md R25). What other machines keep in flags is here:
the overflow filter (40_add_mul.md R69) and the comparison results (43_compare.md R79, R80). -/

namespace Sys2Proof.Machine

/-- The overflow filter `ovf(r)` (R69). -/
def overflowFilter (p : Params) (r : Int) (s : State) : Act Int :=
  if inCell p r then .ok r s
  else match p.overflowPolicy, p.width with
    | .fault, _ => .raise .overflowFault s
    | .wrap, some w => .ok (wrapCell w r) s
    | .wrap, none => .ok r s

/-- A comparison's result as a cell: exactly 1 or exactly 0 (R79, R80). -/
def cellOfBool (b : Bool) : Int := if b then 1 else 0

/-- Signed less-than (R79). -/
def lessThan (x y : Int) : Int := cellOfBool (decide (x < y))

/-- Equality of integers (R80). -/
def equals (x y : Int) : Int := cellOfBool (decide (x = y))

end Sys2Proof.Machine
end

