-- ==== Sys2Proof/Syntax.lean ====
section
/-! DEFINITION. The instructions as data: one constructor per row of spec/opcode_table.json, each with its
parameters as written in the instruction's cells (30_encoding.md R49, R53, R56). -/

namespace Sys2Proof

/-- The addressing mode of one parameter, from its mode digit (R55, R56). -/
inductive Mode where
  /-- Digit 0, position (R59). -/
  | position
  /-- Digit 1, immediate (R60). -/
  | immediate
  /-- Digit 2, relative (R62). -/
  | relative
  /-- A digit 3 to 9. The instruction is decoded all the same; resolving the parameter raises InvalidModeFault (R56),
  after the faults of the parameters before it (R111). -/
  | reserved (digit : Nat)
deriving DecidableEq, Repr

/-- One parameter as encoded: its mode and its raw operand `v_k` (R49). -/
structure Operand where
  mode : Mode
  raw : Int
deriving DecidableEq, Repr

/-- The kind of a parameter, fixed by the operation and the position (R58). -/
inductive Kind where
  /-- Resolves to a value. -/
  | read
  /-- Resolves to a non-negative cell address and is not read. -/
  | address
deriving DecidableEq, Repr

/-- The ten operations with their parameters, in the order of the table of R53. -/
inductive Instr where
  /-- Operation 1, `ADD a, b, dst` (R70). -/
  | add (a b dst : Operand)
  /-- Operation 2, `MUL a, b, dst` (R71). -/
  | mul (a b dst : Operand)
  /-- Operation 3, `IN dst` (R72). -/
  | input (dst : Operand)
  /-- Operation 4, `OUT a` (R73). -/
  | output (a : Operand)
  /-- Operation 5, `JNZ a, target` (R76). -/
  | jnz (a target : Operand)
  /-- Operation 6, `JZ a, target` (R77). -/
  | jz (a target : Operand)
  /-- Operation 7, `LT a, b, dst` (R79). -/
  | lt (a b dst : Operand)
  /-- Operation 8, `EQ a, b, dst` (R80). -/
  | eq (a b dst : Operand)
  /-- Operation 9, `ARB a` (R82). -/
  | arb (a : Operand)
  /-- Operation 99, `HLT` (R83). -/
  | hlt
deriving DecidableEq, Repr

/-- The parameters of an instruction, in order. -/
def Instr.operands : Instr → List Operand
  | .add a b dst => [a, b, dst]
  | .mul a b dst => [a, b, dst]
  | .input dst => [dst]
  | .output a => [a]
  | .jnz a target => [a, target]
  | .jz a target => [a, target]
  | .lt a b dst => [a, b, dst]
  | .eq a b dst => [a, b, dst]
  | .arb a => [a]
  | .hlt => []

/-- The instruction's length in cells, `1 + n` (R49, R54). -/
def Instr.length (i : Instr) : Nat := 1 + i.operands.length

/-- The operation selector `op` of an instruction (R53). -/
def Instr.selector : Instr → Nat
  | .add _ _ _ => 1
  | .mul _ _ _ => 2
  | .input _ => 3
  | .output _ => 4
  | .jnz _ _ => 5
  | .jz _ _ => 6
  | .lt _ _ _ => 7
  | .eq _ _ _ => 8
  | .arb _ => 9
  | .hlt => 99

/-- The mnemonic of an instruction (R53, R67). -/
def Instr.mnemonic : Instr → String
  | .add _ _ _ => "ADD"
  | .mul _ _ _ => "MUL"
  | .input _ => "IN"
  | .output _ => "OUT"
  | .jnz _ _ => "JNZ"
  | .jz _ _ => "JZ"
  | .lt _ _ _ => "LT"
  | .eq _ _ _ => "EQ"
  | .arb _ => "ARB"
  | .hlt => "HLT"

end Sys2Proof
end

