-- ==== Sys2Proof/WellFormed.lean ====
section
/-! DEFINITION. Which instruction terms an encoding can hold (`Instr.wellFormed`: every raw operand is a cell
value, every mode is a decimal digit), and which of them use only the modes the operation may have
(`Instr.legalModes`, 30_encoding.md R66). A well-formed instruction with an illegal mode is decoded and
executed: it raises InvalidModeFault in its turn. -/

namespace Sys2Proof

/-- A reserved mode holds one of the digits 3 to 9 (R56). -/
def Mode.wellFormed : Mode → Bool
  | .position => true
  | .immediate => true
  | .relative => true
  | .reserved d => decide (3 ≤ d) && decide (d ≤ 9)

/-- The mode is a digit and the raw operand a cell value (R49). -/
def Operand.wellFormed (p : Params) (o : Operand) : Bool :=
  o.mode.wellFormed && Machine.inCell p o.raw

/-- Every parameter is well formed. -/
def Instr.wellFormed (p : Params) (i : Instr) : Bool :=
  i.operands.all (fun o => o.wellFormed p)

/-- The modes a parameter of the given kind may have: 0, 1, 2 for the read kind, 0, 2 for the address kind
(R56, R61). -/
def Mode.legalFor : Kind → Mode → Bool
  | _, .position => true
  | .read, .immediate => true
  | .address, .immediate => false
  | _, .relative => true
  | _, .reserved _ => false

/-- The kind of the second parameter of operations 5 and 6 (R10, R53, R78). -/
def targetKind (p : Params) : Kind :=
  match p.jumpTargetKind with
  | .address => .address
  | .value => .read

/-- The kinds of an operation's parameters, in order (R53). -/
def Instr.kinds (p : Params) : Instr → List Kind
  | .add _ _ _ => [.read, .read, .address]
  | .mul _ _ _ => [.read, .read, .address]
  | .input _ => [.address]
  | .output _ => [.read]
  | .jnz _ _ => [.read, targetKind p]
  | .jz _ _ => [.read, targetKind p]
  | .lt _ _ _ => [.read, .read, .address]
  | .eq _ _ _ => [.read, .read, .address]
  | .arb _ => [.read]
  | .hlt => []

/-- Every mode is one the operation may have in that place (R66). -/
def Instr.legalModes (p : Params) (i : Instr) : Bool :=
  ((i.kinds p).zip i.operands).all (fun ko => Mode.legalFor ko.1 ko.2.mode)

end Sys2Proof
end

