-- ==== Sys2Proof/Machine/Operands.lean ====
section
/-! DEFINITION. Resolving a parameter (30_encoding.md R58 to R64): the machine's only operand forms are the three
modes, each of the read kind or the address kind. -/

namespace Sys2Proof.Machine

/-- The address a position or relative parameter names: `v`, or `rb + v` computed exactly (R59, R62). -/
def operandAddress (rb : Int) (o : Operand) : Int :=
  match o.mode with
  | .relative => rb + o.raw
  | _ => o.raw

/-- `Resolve(kind, m, v)` (R63). -/
def resolve (p : Params) (kind : Kind) (o : Operand) (s : State) : Act Int :=
  match o.mode, kind with
  | .reserved _, _ => .raise .invalidModeFault s
  | .immediate, .address => .raise .invalidModeFault s
  | .immediate, .read => .ok o.raw s
  | _, .address =>
    if operandAddress s.rb o < 0 then .raise .addressFault s else .ok (operandAddress s.rb o) s
  | _, .read => memRead p (operandAddress s.rb o) s

/-- Parameter `k` of the instruction at `pc` (R64): its cell is fetched through `MemRead(pc + k, 1)` (R38), then it is
resolved. The raw operand is the one the decoder was given. -/
def operand (p : Params) (k : Nat) (kind : Kind) (o : Operand) (s : State) : Act Int :=
  (memRead p ((s.pc + k : Nat) : Int) s).bind fun _ s1 => resolve p kind o s1

end Sys2Proof.Machine
end

