-- ==== Sys2Proof/Machine/Arith.lean ====
section
/-! DEFINITION. ADD and MUL (40_add_mul.md R70, R71), and the shape they share with LT and EQ: two read
parameters, one address parameter, a value stored there. `run…` is the instruction under any parameter setting,
`exec…` the same under the setting the spec takes. -/

namespace Sys2Proof.Machine

/-- The `rra` shape (R53): resolve `a`, `b`, `dst` in order (R64), compute, store, `pc + 4` (R87). -/
def runStore (p : Params) (compute : Int → Int → State → Act Int) (a b dst : Operand) (s : State) : Act Unit :=
  (operand p 1 .read a s).bind fun x s1 =>
  (operand p 2 .read b s1).bind fun y s2 =>
  (operand p 3 .address dst s2).bind fun d s3 =>
  (compute x y s3).bind fun r s4 =>
  (memWrite p d r s4).bind fun _ s5 =>
  finish p (s4.pc + 4) s4 s5

/-- `ADD a, b, dst` (R70). -/
def runAdd (p : Params) (a b dst : Operand) (s : State) : Act Unit :=
  runStore p (fun x y s' => overflowFilter p (x + y) s') a b dst s

/-- `MUL a, b, dst` (R71). -/
def runMul (p : Params) (a b dst : Operand) (s : State) : Act Unit :=
  runStore p (fun x y s' => overflowFilter p (x * y) s') a b dst s

/-- The meaning of ADD (R70). -/
def execAdd (a b dst : Operand) (s : State) : Host.Outcome State Fault Refusal := (runAdd params a b dst s).outcome

/-- The meaning of MUL (R71). -/
def execMul (a b dst : Operand) (s : State) : Host.Outcome State Fault Refusal := (runMul params a b dst s).outcome

end Sys2Proof.Machine
end

