-- ==== Sys2Proof/Machine/Compare.lean ====
section
/-! DEFINITION. LT and EQ (43_compare.md R79, R80). -/

namespace Sys2Proof.Machine

/-- `LT a, b, dst` (R79). -/
def runLt (p : Params) (a b dst : Operand) (s : State) : Act Unit :=
  runStore p (fun x y s' => .ok (lessThan x y) s') a b dst s

/-- `EQ a, b, dst` (R80). -/
def runEq (p : Params) (a b dst : Operand) (s : State) : Act Unit :=
  runStore p (fun x y s' => .ok (equals x y) s') a b dst s

/-- The meaning of LT (R79). -/
def execLt (a b dst : Operand) (s : State) : Host.Outcome State Fault Refusal := (runLt params a b dst s).outcome

/-- The meaning of EQ (R80). -/
def execEq (a b dst : Operand) (s : State) : Host.Outcome State Fault Refusal := (runEq params a b dst s).outcome

end Sys2Proof.Machine
end

