-- ==== Sys2Proof/Machine/Control.lean ====
section
/-! DEFINITION. ARB and HLT (44_relbase_halt.md R82, R83). -/

namespace Sys2Proof.Machine

/-- `ARB a` (R82): the parameter is resolved with the old `rb`, then added to it. -/
def runArb (p : Params) (a : Operand) (s : State) : Act Unit :=
  (operand p 1 .read a s).bind fun x s1 =>
  (overflowFilter p (s1.rb + x) s1).bind fun r s2 =>
  finish p (s2.pc + 2) s2 (setRb r s2)

/-- `HLT` (R83): `halted <- true`; the program counter is not changed, no operand is fetched. -/
def runHlt (s : State) : Act Unit := .ok () (setHalted s)

/-- The meaning of ARB (R82). -/
def execArb (a : Operand) (s : State) : Host.Outcome State Fault Refusal := (runArb params a s).outcome

/-- The meaning of HLT (R83). -/
def execHlt (s : State) : Host.Outcome State Fault Refusal := (runHlt s).outcome

end Sys2Proof.Machine
end

