-- ==== Sys2Proof/Machine/InOut.lean ====
section
/-! DEFINITION. IN and OUT (41_input_output.md R72, R73). -/

namespace Sys2Proof.Machine

/-- `IN dst` (R72): the destination's faults come first; an empty queue starves or stalls; else one value is popped
and stored. -/
def runInput (p : Params) (dst : Operand) (s : State) : Act Unit :=
  (operand p 1 .address dst s).bind fun d s1 =>
  match s1.inq with
  | [] => if s1.inClosed then .raise .inputStarvationFault s1 else .stall s1
  | x :: rest => (memWrite p d x (setInq rest s1)).bind fun _ s2 => finish p (s1.pc + 2) s1 s2

/-- `OUT a` (R73): a full queue stalls (finite OUT_DEPTH only); else the value is pushed at the back. -/
def runOutput (p : Params) (a : Operand) (s : State) : Act Unit :=
  (operand p 1 .read a s).bind fun x s1 =>
  if queueFull p.outDepth s1.outq then .stall s1
  else finish p (s1.pc + 2) s1 (setOutq (s1.outq ++ [x]) s1)

/-- The meaning of IN (R72). -/
def execInput (dst : Operand) (s : State) : Host.Outcome State Fault Refusal := (runInput params dst s).outcome

/-- The meaning of OUT (R73). -/
def execOutput (a : Operand) (s : State) : Host.Outcome State Fault Refusal := (runOutput params a s).outcome

end Sys2Proof.Machine
end

