-- ==== Sys2Proof/Machine/Jumps.lean ====
section
/-! DEFINITION. JNZ and JZ (42_jumps.md R74 to R78). -/

namespace Sys2Proof.Machine

/-- The `ra` shape of the jumps: both parameters are resolved whether or not the jump is taken (R64); a taken jump
sets the program counter to the target, else `pc + 3` (R87). A negative target can reach the first line only under
JUMP_TARGET_KIND = value, where a taken jump to it raises AddressFault (R78). -/
def runJump (p : Params) (taken : Int → Bool) (a target : Operand) (s : State) : Act Unit :=
  (operand p 1 .read a s).bind fun x s1 =>
  (operand p 2 (targetKind p) target s1).bind fun t s2 =>
  if taken x then (if t < 0 then .raise .addressFault s2 else finish p t.toNat s2 s2)
  else finish p (s2.pc + 3) s2 s2

/-- `JNZ a, target` (R76). -/
def runJnz (p : Params) (a target : Operand) (s : State) : Act Unit :=
  runJump p (fun x => decide (x ≠ 0)) a target s

/-- `JZ a, target` (R77). -/
def runJz (p : Params) (a target : Operand) (s : State) : Act Unit :=
  runJump p (fun x => decide (x = 0)) a target s

/-- The meaning of JNZ (R76). -/
def execJnz (a target : Operand) (s : State) : Host.Outcome State Fault Refusal := (runJnz params a target s).outcome

/-- The meaning of JZ (R77). -/
def execJz (a target : Operand) (s : State) : Host.Outcome State Fault Refusal := (runJz params a target s).outcome

end Sys2Proof.Machine
end

