-- ==== Sys2Proof/Decode.lean ====
section
/-! DEFINITION. The Decoder's word half (30_encoding.md R49 to R57): opcode word and raw operands to an
instruction, total, rejecting by name; the encoder of the canonical word (R66); and the decoder on the bit
numbering of spec/opcode_table.json. -/

namespace Sys2Proof

/-- `digit(w, k)` (00_scope.md section 5): the decimal digit of `w` with weight 10^k. -/
def digit (w k : Nat) : Nat := w / 10 ^ k % 10

/-- The mode of a mode digit (R55, R56). -/
def modeOfDigit (d : Nat) : Mode :=
  match d with
  | 0 => .position
  | 1 => .immediate
  | 2 => .relative
  | d => .reserved d

/-- The mode digit of a mode. -/
def Mode.digit : Mode → Nat
  | .position => 0
  | .immediate => 1
  | .relative => 2
  | .reserved d => d

/-- Why the decoder accepts no instruction. All but `truncated` are the causes of InvalidOpcodeFault (R106). -/
inductive DecodeReject where
  /-- The opcode word is negative (R51). -/
  | negativeWord
  /-- The operation selector is not one of the ten (R52). -/
  | illegalSelector (op : Nat)
  /-- STRICT_DECODE and a non-zero digit that no parameter consumes (R57). -/
  | strayDigits
  /-- The list given ends inside the instruction; never so for the cells the Engine fetches (the tape has no end). -/
  | truncated
deriving DecidableEq, Repr

/-- Parameter `k` of opcode word `w` with raw operand `v`: its mode is `digit(w, k + 1)` (R55, conflict C1). -/
def operandOf (w k : Nat) (v : Int) : Operand :=
  { mode := modeOfDigit (digit w (k + 1)), raw := v }

/-- The parameter count of a selector, none outside the legal set (R52, R53). -/
def paramCount (op : Nat) : Option Nat :=
  match op with
  | 1 => some 3
  | 2 => some 3
  | 3 => some 1
  | 4 => some 1
  | 5 => some 2
  | 6 => some 2
  | 7 => some 3
  | 8 => some 3
  | 9 => some 1
  | 99 => some 0
  | _ => none

/-- The instruction of selector `w mod 100` with the raw operands at the head of the list (R53). -/
def buildInstr (w : Nat) (cells : List Int) : Except DecodeReject (Instr × List Int) :=
  match w % 100, cells with
  | 1, a :: b :: d :: rest => .ok (.add (operandOf w 1 a) (operandOf w 2 b) (operandOf w 3 d), rest)
  | 2, a :: b :: d :: rest => .ok (.mul (operandOf w 1 a) (operandOf w 2 b) (operandOf w 3 d), rest)
  | 3, d :: rest => .ok (.input (operandOf w 1 d), rest)
  | 4, a :: rest => .ok (.output (operandOf w 1 a), rest)
  | 5, a :: t :: rest => .ok (.jnz (operandOf w 1 a) (operandOf w 2 t), rest)
  | 6, a :: t :: rest => .ok (.jz (operandOf w 1 a) (operandOf w 2 t), rest)
  | 7, a :: b :: d :: rest => .ok (.lt (operandOf w 1 a) (operandOf w 2 b) (operandOf w 3 d), rest)
  | 8, a :: b :: d :: rest => .ok (.eq (operandOf w 1 a) (operandOf w 2 b) (operandOf w 3 d), rest)
  | 9, a :: rest => .ok (.arb (operandOf w 1 a), rest)
  | 99, rest => .ok (.hlt, rest)
  | _, _ => .error .truncated

/-- The decoder (R86 lines 3 to 5): sign of the word, selector, stray digits if `strict`, then the fields. Returns the
instruction and the cells after it. -/
def decode (strict : Bool) : List Int → Except DecodeReject (Instr × List Int)
  | [] => .error .truncated
  | w :: rest =>
    if w < 0 then .error .negativeWord
    else match paramCount (w.toNat % 100) with
      | none => .error (.illegalSelector (w.toNat % 100))
      | some n =>
        if strict && decide (w.toNat / 10 ^ (n + 2) ≠ 0) then .error .strayDigits
        else buildInstr w.toNat rest

/-- The digits of the modes, the first parameter's lowest (R50). -/
def modeDigits : List Operand → Nat
  | [] => 0
  | o :: rest => o.mode.digit + 10 * modeDigits rest

/-- The canonical opcode word `op + 100*m1 + 1000*m2 + 10000*m3` (R66). -/
def Instr.opcodeWord (i : Instr) : Nat := i.selector + 100 * modeDigits i.operands

/-- The encoder: the canonical opcode word, then the raw operands in order (R49, R67). -/
def encode (i : Instr) : List Int := (i.opcodeWord : Int) :: i.operands.map (fun o => o.raw)

/-- The number of bits a cell has in the numbering of `decodeTableWord`: W = 64 (R5). -/
def tableCellBits : Nat := 64

/-- The signed integer of `w` bits whose two's-complement bits are those of `x`. -/
def signedOfBits (w x : Nat) : Int :=
  if x % 2 ^ w < 2 ^ (w - 1) then ((x % 2 ^ w : Nat) : Int) else ((x % 2 ^ w : Nat) : Int) - ((2 ^ w : Nat) : Int)

/-- The first `n` cells whose bits are those of `x`, bit 0 the lowest bit of the first cell. -/
def cellsOfBits : Nat → Nat → List Int
  | 0, _ => []
  | n + 1, x => signedOfBits tableCellBits x :: cellsOfBits n (x / 2 ^ tableCellBits)

/-- The four cells of the longest instruction, from the low `nbits` bits of `w`; every bit above them is 0.
DESIGN CHOICE (log entry 12): the spec's encoding is decimal and has no bits (R39); a cell is taken as 64 bits. -/
def tableCells (nbits w : Nat) : List Int := cellsOfBits 4 (w % 2 ^ nbits)

/-- The instruction the decoder reads from an instruction whose bits are the low `nbits` of `w`. -/
def decodeTableWord (nbits w : Nat) : Option Instr :=
  match decode Machine.params.strictDecode (tableCells nbits w) with
  | .ok (i, _) => some i
  | .error _ => none

end Sys2Proof
end

