-- ==== Sys2Proof/Machine/Fetch.lean ====
section
/-! DEFINITION. Lines 2 to 5 of the step (45_engine.md R86): the opcode word is fetched and the instruction decoded.
The operand cells are looked at here without touching `extent`; each is fetched through `MemRead` when its
parameter's turn comes (`operand`), and nothing is written in between (R86, log entry 17). -/

namespace Sys2Proof.Machine

/-- The contents of the three cells after the opcode word. -/
def operandCells (s : State) : List Int :=
  [Memory.read (s.pc + 1) s.mem, Memory.read (s.pc + 2) s.mem, Memory.read (s.pc + 3) s.mem]

/-- The instruction at the program counter and the state after its opcode word is fetched; a word the decoder rejects
raises InvalidOpcodeFault (R51, R52, R57). -/
def fetchDecode (p : Params) (s : State) : Act Instr :=
  (memRead p (s.pc : Int) s).bind fun w s1 =>
  match decode p.strictDecode (w :: operandCells s) with
  | .ok (i, _) => .ok i s1
  | .error _ => .raise .invalidOpcodeFault s1

end Sys2Proof.Machine
end

