-- ==== Sys2Proof/Machine/Step.lean ====
section
/-! DEFINITION. One step of the instance under the parameter setting the spec takes (45_engine.md R86), and the
placing of an instruction where the next step fetches. -/

namespace Sys2Proof.Machine

/-- `Step()` (R86). A Halted or Faulted instance does nothing and fetches nothing (R89). A raised fault and a stall
are next states (R88, R112). -/
def step (s : State) : Host.Outcome State Fault Refusal :=
  if running s then
    match fetchDecode params s with
    | .ok i s1 => exec i s1
    | .raise f s1 => (Act.raise (α := Unit) f s1).outcome
    | .stall s1 => (Act.stall (α := Unit) s1).outcome
    | .refuse r => (Act.refuse (α := Unit) r).outcome
  else .next s

/-- The four cells of an instruction whose bits are the low `nbits` of `w` (every higher bit 0), stored from the
program counter on, and the instance made Running, as a load of a Program leaves it (R125; log entry 11). -/
def State.withFetchWord (s : State) (nbits w : Nat) : State :=
  { loadCells s.pc (tableCells nbits w) s with halted := false, fault := none }

end Sys2Proof.Machine
end

