-- ==== Sys2Proof/Machine/Engine.lean ====
section
/-! DEFINITION. The Execution Engine under any parameter setting (45_engine.md R84 to R92): the step with the result
it returns, `run`, and the derived status `waiting_input`. `Machine.step` (Step.lean) is the state half of `stepReport`
under the setting the spec takes. -/

namespace Sys2Proof.Machine

/-- Lines 6 and 7 of the step for every operation, under parameters `p` (R86). -/
def runInstr (p : Params) (i : Instr) (s : State) : Act Unit :=
  match i with
  | .add a b dst => runAdd p a b dst s
  | .mul a b dst => runMul p a b dst s
  | .input dst => runInput p dst s
  | .output a => runOutput p a s
  | .jnz a target => runJnz p a target s
  | .jz a target => runJz p a target s
  | .lt a b dst => runLt p a b dst s
  | .eq a b dst => runEq p a b dst s
  | .arb a => runArb p a s
  | .hlt => runHlt s

/-- What a step returns to the host (R86). -/
inductive StepResult where
  | done
  | stalled
  | faulted (f : FaultKind)
  | idle
deriving DecidableEq, Repr

/-- A step's result with the state after it, or no step at all (R7, R16). -/
inductive Report where
  | stepped (r : StepResult) (s : State)
  | refused (r : Refusal)
deriving DecidableEq, Repr

/-- The report of a step that was attempted. -/
def Act.report (x : Act Unit) : Report :=
  match x with
  | .ok _ s => .stepped .done s
  | .raise f s => .stepped (.faulted f) (takeFault f s)
  | .stall s => .stepped .stalled s
  | .refuse r => .refused r

/-- `Step()` (R86): idle when Halted or Faulted, with no fetch (R89); else fetch, decode, execute. -/
def stepReport (p : Params) (s : State) : Report :=
  if running s then ((fetchDecode p s).bind fun i s1 => runInstr p i s1).report
  else .stepped .idle s

/-- The derived status `waiting_input` (R29): the next step would stall on Input. It is computed from the state and
changes nothing, `extent` included. -/
def waitingInput (p : Params) (s : State) : Bool :=
  running s &&
  match fetchDecode p s with
  | .ok (.input dst) s1 =>
    match operand p 1 .address dst s1 with
    | .ok _ _ => s.inq.isEmpty && !s.inClosed
    | _ => false
  | _ => false

/-- How a bounded run stands. -/
inductive RunResult where
  /-- The run has ended: Halted or Faulted (R92). -/
  | ended (s : State)
  /-- The bound is reached and the instance is still Running. -/
  | unfinished (s : State)
  /-- A step was refused (R7, R16). -/
  | refused (r : Refusal)
deriving DecidableEq, Repr

/-- `Run()` (R90), cut off after `n` steps: step until Idle, Faulted or halted; a stalled step is attempted again. -/
def runFor (p : Params) : Nat → State → RunResult
  | 0, s => if running s then .unfinished s else .ended s
  | n + 1, s =>
    match stepReport p s with
    | .refused r => .refused r
    | .stepped .idle s' => .ended s'
    | .stepped (.faulted _) s' => .ended s'
    | .stepped .done s' => if s'.halted then .ended s' else runFor p n s'
    | .stepped .stalled s' => runFor p n s'

end Sys2Proof.Machine
end

