-- ==== Sys2Proof/Machine/HostPort.lean ====
section
/-! DEFINITION. The host's transactions (46_io_channel.md R93 to R103, 70_reset_and_hazards.md R125 to R127). Each is
atomic and lies between two steps (45_engine.md R84); none is taken by `step`. -/

namespace Sys2Proof.Machine

/-- `reset(P, Z)` (R125): a Program with a cell outside the range is refused (R127). Nothing of an earlier state is
kept (R126), so there is no state argument. DESIGN CHOICE (log entry 25): a finite MEM_LIMIT below `L + Z` is not looked at
here, since R125 and R127 do not name it; the cells beyond it are loaded and no step can reach them. -/
def resetWith (p : Params) (program : List Int) (padding : Nat) : Option State :=
  if program.all (fun v => inCell p v) then
    some { State.reset with mem := Memory.ofCells 0 program, extent := program.length + padding }
  else none

/-- `push_input(v)` (R95): refused for a value outside the cell range and on a full queue (R96). -/
def pushInput (p : Params) (v : Int) (s : State) : Option State :=
  if inCell p v && !queueFull p.inDepth s.inq then some (setInq (s.inq ++ [v]) s) else none

/-- `pop_output()` (R97): the oldest value, or "no value" and no change. -/
def popOutput (s : State) : Option Int × State :=
  match s.outq with
  | [] => (none, s)
  | x :: rest => (some x, setOutq rest s)

/-- `set_in_closed()` (R101). There is no transaction that lowers it (R22). -/
def setInClosed (s : State) : State := { s with inClosed := true }

/-- What `status()` returns (R99). -/
structure Status where
  halted : Bool
  fault : Option FaultKind
  running : Bool
  waitingInput : Bool
deriving DecidableEq, Repr

/-- `status()` (R99). -/
def status (p : Params) (s : State) : Status :=
  { halted := s.halted, fault := s.fault, running := running s, waitingInput := waitingInput p s }

/-- What `dump()` returns (R100, R101). -/
structure Dump where
  tape : List Int
  pc : Nat
  rb : Int
  extent : Nat
deriving DecidableEq, Repr

/-- `dump()` (R100): cells `0..extent-1` and the registers. -/
def dump (s : State) : Dump :=
  { tape := (List.range s.extent).map (fun a => Memory.read a s.mem), pc := s.pc, rb := s.rb, extent := s.extent }

/-- One value over the link from `a` to `b` (R103): `v <- a.pop_output(); b.push_input(v)`. `none` when there is no value
or `b` refuses it; then neither instance changes. -/
def transfer (p : Params) (a b : State) : Option (State × State) :=
  match popOutput a with
  | (none, _) => none
  | (some v, a') =>
    match pushInput p v b with
    | none => none
    | some b' => some (a', b')

end Sys2Proof.Machine
end

