-- ==== Sys2Proof/Machine/Network.lean ====
section
/-! DEFINITION. Several instances wired together (46_io_channel.md R103, 60_exceptions.md R120 to R124): what one
instance offers the Orchestrator, which is itself out of scope (00_scope.md R4a). Which move comes next is the caller's
choice (log entry 15). -/

namespace Sys2Proof.Machine

/-- A network: instances that share nothing (R30, R120), and the links, each from the output queue of one instance to
the input queue of another, by index. -/
structure Network where
  instances : List State
  links : List (Nat × Nat)
deriving DecidableEq, Repr

/-- One step of instance `k` (R84, R120): its result and the network after it. `none` when there is no such instance or
the step is refused. -/
def Network.stepAt (p : Params) (k : Nat) (net : Network) : Option (StepResult × Network) :=
  match net.instances[k]? with
  | none => none
  | some s =>
    match stepReport p s with
    | .stepped r t => some (r, { net with instances := net.instances.set k t })
    | .refused _ => none

/-- One value over the link from instance `i` to instance `j` (R103), which may be the same instance: popped from the
one, then pushed to the other. `none` when no value is there or the push is refused. -/
def Network.transferOver (p : Params) (i j : Nat) (net : Network) : Option Network :=
  match net.instances[i]? with
  | none => none
  | some a =>
    match popOutput a with
    | (none, _) => none
    | (some v, a') =>
      match (net.instances.set i a')[j]? with
      | none => none
      | some b =>
        match pushInput p v b with
        | none => none
        | some b' => some { net with instances := (net.instances.set i a').set j b' }

/-- The links of a ring of `n` instances: each to the next, the last to the first (R122). -/
def ringLinks (n : Nat) : List (Nat × Nat) := (List.range n).map (fun k => (k, (k + 1) % n))

/-- `OrchestrationDeadlock` of a ring (R124): every instance waits for input and no value is in flight. A value in an
output queue that a link will move is counted as in flight (R103, log entry 16). -/
def ringDeadlocked (p : Params) (ring : List State) : Bool :=
  ring.all (fun s => waitingInput p s && s.outq.isEmpty)

/-- Up to `n` values over the link from instance `i` to instance `j`, in order, until no value is there or a push is
refused (R103). -/
def Network.drainOver (p : Params) (i j : Nat) : Nat → Network → Network
  | 0, net => net
  | n + 1, net =>
    match net.transferOver p i j with
    | none => net
    | some after => Network.drainOver p i j n after

/-- The values pushed one after the other (R95); `none` when one is refused. -/
def pushAll (p : Params) : List Int → State → Option State
  | [], s => some s
  | v :: rest, s =>
    match pushInput p v s with
    | none => none
    | some s' => pushAll p rest s'

/-- How a linear chain ends (R121): the last instance's full output, or the first instance that does not halt. The last two
endings are the model's choice where R121 is silent (log entry 27). -/
inductive ChainResult where
  /-- Every instance has halted; this is the last one's full output. -/
  | output (values : List Int)
  /-- An instance has faulted (R123). -/
  | faulted (f : FaultKind)
  /-- An instance has not ended within the bound: it runs on, waits for input, or stalls on a full `outq`. -/
  | unfinished
  /-- A value is refused by `inq` (R95, R96), or a step is refused (R7, R16). -/
  | refused
deriving DecidableEq, Repr

/-- The linear topology (R121): feed one instance's input, run it to completion within `n` steps, feed its full output
to the next; a fault is surfaced (R123). DESIGN CHOICE (log entry 27): the bound `n`, and what R121 leaves open with finite
queue depths: every value is pushed before the first step, a push refused on a full `inq` (R96) ends the chain as `refused`,
and an instance that stalls on a full `outq` (R98) stays unpopped until the bound, so the chain ends as `unfinished`. -/
def runChain (p : Params) (n : Nat) : List State → List Int → ChainResult
  | [], values => .output values
  | s :: rest, values =>
    match pushAll p values s with
    | none => .refused
    | some s1 =>
      match runFor p n s1 with
      | .unfinished _ => .unfinished
      | .refused _ => .refused
      | .ended t =>
        match t.fault with
        | some f => .faulted f
        | none => runChain p n rest t.outq

end Sys2Proof.Machine
end

