-- ==== Sys2Proof/Machine/Assembler.lean ====
section
/-! DEFINITION. The assembly notation of 30_encoding.md R67, as an assembler of abstract lines and a printer of
instructions. It has no part in any step. -/

namespace Sys2Proof.Machine

/-- A line of a program: an instruction, or `DATA v, v, ...`. -/
inductive AsmLine where
  | instr (i : Instr)
  | data (values : List Int)
deriving DecidableEq, Repr

/-- The cells of one line: the canonical opcode word and the raw operands, or the listed integers. A line whose
operand form is not accepted in its place (`#v` on an address-kind parameter) has none. -/
def assembleLine (p : Params) : AsmLine → Option (List Int)
  | .instr i => if i.legalModes p then some (encode i) else none
  | .data values => some values

/-- The cells of a program, line after line. -/
def assemble (p : Params) : List AsmLine → Option (List Int)
  | [] => some []
  | l :: rest =>
    match assembleLine p l, assemble p rest with
    | some here, some after => some (here ++ after)
    | _, _ => none

/-- A decimal integer, with its sign. -/
def printInt (v : Int) : String := if v < 0 then "-" ++ Nat.repr v.natAbs else Nat.repr v.natAbs

/-- The operand forms `[v]`, `#v`, `[rb+v]` and `[rb-u]`; a reserved mode has no form and is shown with its digit. -/
def printOperand (o : Operand) : String :=
  match o.mode with
  | .position => "[" ++ printInt o.raw ++ "]"
  | .immediate => "#" ++ printInt o.raw
  | .relative => if o.raw < 0 then "[rb" ++ printInt o.raw ++ "]" else "[rb+" ++ printInt o.raw ++ "]"
  | .reserved d => "?" ++ Nat.repr d ++ " " ++ printInt o.raw

/-- `MNEMONIC operand, operand, operand`. -/
def printInstr (i : Instr) : String :=
  match i.operands with
  | [] => i.mnemonic
  | os => i.mnemonic ++ " " ++ String.intercalate ", " (os.map printOperand)

end Sys2Proof.Machine
end

