-- ==== Sys2Proof/Safety.lean ====
section
/-! DEFINITION. The terms in which claims are stated: the state invariant, the good end of a run, and what the
parameters of an instruction name in a state, written without the step (10_state.md R12 to R31, 30_encoding.md R55
to R66, 60_exceptions.md R111). -/

namespace Sys2Proof.Machine

/-- A parameter setting under which LT and EQ can store their result 1: W is infinite or at least 2 (R5; log entry 21). -/
abbrev paramsOk (p : Params) : Prop :=
  match p.width with
  | none => True
  | some w => 2 ≤ w

/-- The invariant of an instance: memory in canonical form, every cell in range and below `extent` (R13, R14), `pc` and
`rb` in their ranges (R15, R17), the queues in range and within their depths (R20, R21), and not both Halted and
Faulted (R19, R85). -/
abbrev State.Ok (p : Params) (s : State) : Prop :=
  Memory.wf s.mem = true ∧ Memory.inRange p s.mem = true ∧ Memory.below s.extent s.mem = true ∧
  pcFits p s.pc = true ∧ inCell p s.rb = true ∧
  s.inq.all (fun v => inCell p v) = true ∧ s.outq.all (fun v => inCell p v) = true ∧
  queueFits p.inDepth s.inq = true ∧ queueFits p.outDepth s.outq = true ∧
  (s.halted = true → s.fault = none)

/-- The only good end of a run: Halted (R92). -/
def goodEnd (s : State) : Bool := s.halted && s.fault.isNone

/-- The next state of an outcome, if it is one. -/
def nextState : Host.Outcome State Fault Refusal → Option State
  | .next t => some t
  | .fault _ => none
  | .refused _ => none

/-- The outcome of a report: its state half (R86). -/
def Report.outcome : Report → Host.Outcome State Fault Refusal
  | .stepped _ t => .next t
  | .refused r => .refused r

/-- A parameter of the read kind that resolves without a fault: immediate, or position or relative with a non-negative
address (R59, R60, R62). -/
def readable (s : State) (o : Operand) : Bool :=
  match o.mode with
  | .immediate => true
  | .reserved _ => false
  | .position => decide (0 ≤ operandAddress s.rb o)
  | .relative => decide (0 ≤ operandAddress s.rb o)

/-- A parameter of the address kind that resolves without a fault (R59, R61, R62). -/
def addressable (s : State) (o : Operand) : Bool :=
  match o.mode with
  | .immediate => false
  | .reserved _ => false
  | .position => decide (0 ≤ operandAddress s.rb o)
  | .relative => decide (0 ≤ operandAddress s.rb o)

/-- The value of a parameter of the read kind: the raw operand, or the cell it names (R59, R60, R62). -/
def readValue (s : State) (o : Operand) : Int :=
  match o.mode with
  | .immediate => o.raw
  | _ => Memory.read (operandAddress s.rb o).toNat s.mem

/-- The cells that fetching and resolving parameter `k` of the read kind reads (R38, R64). -/
def readCells (s : State) (k : Nat) (o : Operand) : List Nat :=
  match o.mode with
  | .immediate => [s.pc + k]
  | _ => [s.pc + k, (operandAddress s.rb o).toNat]

/-- The extent after the listed cells are accessed (R14). -/
def extentOver (e : Nat) (cells : List Nat) : Nat := cells.foldl (fun e a => max e (a + 1)) e

/-- The fault that resolving one parameter raises, if any (R63). -/
def paramFault (rb : Int) (kind : Kind) (o : Operand) : Option FaultKind :=
  match o.mode, kind with
  | .reserved _, _ => some .invalidModeFault
  | .immediate, .address => some .invalidModeFault
  | .immediate, .read => none
  | _, _ => if operandAddress rb o < 0 then some .addressFault else none

/-- The fault of the first parameter, in the order 1, 2, 3, that has one (R64, R111). -/
def firstParamFault (p : Params) (i : Instr) (rb : Int) : Option FaultKind :=
  ((i.kinds p).zip i.operands).findSome? (fun ko => paramFault rb ko.1 ko.2)

/-- No parameter before the one at index `k` (from 0) has a fault. -/
def noFaultBefore (p : Params) (i : Instr) (rb : Int) (k : Nat) : Bool :=
  (((i.kinds p).zip i.operands).take k).all (fun ko => (paramFault rb ko.1 ko.2).isNone)

/-- The parameters of an operation of the `rra` shape all resolve, and the next program counter exists (R64, R16). -/
abbrev storeReady (s : State) (a b dst : Operand) : Prop :=
  readable s a = true ∧ readable s b = true ∧ addressable s dst = true ∧ pcFits params (s.pc + 4) = true

/-- The cells an operation of the `rra` shape reads before it stores (R64). -/
def storeReads (s : State) (a b : Operand) : List Nat := readCells s 1 a ++ readCells s 2 b ++ [s.pc + 3]

/-- The state after an operation of the `rra` shape stores `v` (R36, R87). -/
def afterStore (s : State) (a b dst : Operand) (v : Int) : State :=
  { s with
    mem := Memory.write (operandAddress s.rb dst).toNat v s.mem
    extent := extentOver s.extent (storeReads s a b ++ [(operandAddress s.rb dst).toNat])
    pc := s.pc + 4 }

/-- The four cells that a fetch at the program counter can take an instruction from (R49, R64). -/
def nextCells (s : State) : List Int := Memory.read s.pc s.mem :: operandCells s

/-- The opcode words of R66: `op + 100*m1 + 1000*m2 + 10000*m3` over the mode digits of the table of R66, with the
digits `target` for the second parameter of operations 5 and 6. -/
def canonicalWords (target : List Nat) : List Nat :=
  [1, 2, 7, 8].flatMap (fun op => [0, 1, 2].flatMap (fun m1 => [0, 1, 2].flatMap (fun m2 =>
    [0, 2].map (fun m3 => op + 100 * m1 + 1000 * m2 + 10000 * m3)))) ++
  [0, 2].map (fun m1 => 3 + 100 * m1) ++
  [4, 9].flatMap (fun op => [0, 1, 2].map (fun m1 => op + 100 * m1)) ++
  [5, 6].flatMap (fun op => [0, 1, 2].flatMap (fun m1 => target.map (fun m2 => op + 100 * m1 + 1000 * m2))) ++
  [99]

end Sys2Proof.Machine
end

