-- ==== Sys2Proof/Certificates/Slice0/Obligations.lean ====
section
/-! DEFINITION. The statements for the provers. Each docstring names the rules of spec/ it rests on; where a clause
rests on a decision the spec marks as its own (92_eei_decisions.md D<n>) or on a log entry, it says so. -/

section

open Sys2Proof Sys2Proof.Machine

/-! ### Encoding -/

/-- The decoder returns every well-formed instruction that the encoder wrote, under either setting of STRICT_DECODE,
and leaves the cells after it (R49, R50, R66). -/
def Obligations.DecodeOfEncodeReturnsInstr : Prop :=
  ∀ (p : Params) (strict : Bool) (i : Instr) (rest : List Int), i.wellFormed p = true →
    decode strict (encode i ++ rest) = .ok (i, rest)

/-- Under STRICT_DECODE (D5) a word is accepted only in its canonical spelling: encoding the decoded instruction gives
the cells back. So no accepted word has two readings. -/
def Obligations.EncodeOfStrictDecodeReturnsCells : Prop :=
  ∀ (cells : List Int) (i : Instr) (rest : List Int), decode true cells = .ok (i, rest) →
    encode i ++ rest = cells

/-- The selector is `w mod 100`, parameter `k` (index `k - 1` here) has the raw operand in cell `k` after the opcode word,
and the instruction takes `1 + n` cells (R49, R50). Its mode is that of the decimal digit of weight `10^(k+1)`, the hundreds
digit for parameter 1: that order is a choice, the spec's own decision D1 (R55, conflict C1; log entry 6). -/
def Obligations.DecodedFieldsAreTheDigits : Prop :=
  ∀ (strict : Bool) (w : Int) (cells : List Int) (i : Instr) (rest : List Int),
    decode strict (w :: cells) = .ok (i, rest) →
    0 ≤ w ∧ i.selector = w.toNat % 100 ∧
    (∀ (k : Nat) (o : Operand), i.operands[k]? = some o → o.mode = modeOfDigit (w.toNat / 10 ^ (k + 2) % 10)) ∧
    cells = i.operands.map (fun o => o.raw) ++ rest ∧
    i.length + rest.length = (w :: cells).length

/-- Words written out from the spec's worked lines decode to the instructions they stand for: one per family (R55, R67,
95_test_vectors.md S5, P4, V-IO-2, V-IO-6, V-J-8, P3, V-C-1, V-C-8, V-R-3, V-H-1). Which mode digit goes to which parameter,
the hundreds digit to parameter 1, is a choice in all of them, the spec's own decision D1 (conflict C1; log entry 6). -/
def Obligations.WordsOfTheSpecDecode : Prop :=
  decode false [1002, 4, 3, 4] = .ok (.mul ⟨.position, 4⟩ ⟨.immediate, 3⟩ ⟨.position, 4⟩, []) ∧
  decode false [21101, 7, 35, 1000] = .ok (.add ⟨.immediate, 7⟩ ⟨.immediate, 35⟩ ⟨.relative, 1000⟩, []) ∧
  decode false [203, 0, 99] = .ok (.input ⟨.relative, 0⟩, [99]) ∧
  decode false [104, -17, 99] = .ok (.output ⟨.immediate, -17⟩, [99]) ∧
  decode false [2105, 1, 2, 104] = .ok (.jnz ⟨.immediate, 1⟩ ⟨.relative, 2⟩, [104]) ∧
  decode false [6, 101, 0, 99] = .ok (.jz ⟨.position, 101⟩ ⟨.position, 0⟩, [99]) ∧
  decode false [1107, -1, 0, 5] = .ok (.lt ⟨.immediate, -1⟩ ⟨.immediate, 0⟩ ⟨.position, 5⟩, []) ∧
  decode false [1108, 1108, 1108, 0] = .ok (.eq ⟨.immediate, 1108⟩ ⟨.immediate, 1108⟩ ⟨.position, 0⟩, []) ∧
  decode false [209, 0] = .ok (.arb ⟨.relative, 0⟩, []) ∧
  decode false [99] = .ok (.hlt, [])

/-- With STRICT_DECODE = false, the setting the spec takes (R57, its decision D5; log entry 4), a non-negative word is
accepted exactly when its selector is one of the ten (R52), whatever its other digits; with any other selector fetching and
decoding raises InvalidOpcodeFault. In particular a cell that holds 0 is no instruction. -/
def Obligations.SelectorsAreExactlyTheTen : Prop :=
  ∀ (s : State), 0 ≤ Memory.read s.pc s.mem →
    if (Memory.read s.pc s.mem).toNat % 100 ∈ [1, 2, 3, 4, 5, 6, 7, 8, 9, 99] then
      ∃ i, fetchDecode params s = .ok i { s with extent := max s.extent (s.pc + 1) } ∧
        i.selector = (Memory.read s.pc s.mem).toNat % 100
    else fetchDecode params s = .raise .invalidOpcodeFault { s with extent := max s.extent (s.pc + 1) }

/-- A step at a word that is negative (the spec's decision D3) or has a selector outside the ten ends in
InvalidOpcodeFault with `pc` and all else but the extent unchanged (the fault entry is the spec's D7). -/
def Obligations.InvalidWordFaults : Prop :=
  ∀ (s : State), running s = true →
    (Memory.read s.pc s.mem < 0 ∨ (Memory.read s.pc s.mem).toNat % 100 ∉ [1, 2, 3, 4, 5, 6, 7, 8, 9, 99]) →
    step s = .next { s with fault := some .invalidOpcodeFault, extent := max s.extent (s.pc + 1) }

/-- With STRICT_DECODE = false, the setting the spec takes (D5, log entry 4), digits that no parameter consumes do not
change what a word decodes to. -/
def Obligations.StrayDigitsAreNotExamined : Prop :=
  ∀ (w n : Nat) (rest : List Int), paramCount (w % 100) = some n →
    decode false ((w : Int) :: rest) = decode false (((w % 10 ^ (n + 2) : Nat) : Int) :: rest)

/-- With STRICT_DECODE = true (D5) a non-zero digit that no parameter consumes raises InvalidOpcodeFault. -/
def Obligations.StrayDigitsFaultWhenStrict : Prop :=
  ∀ (p : Params) (s : State) (n : Nat), p.strictDecode = true → p.memLimit = none → running s = true →
    0 ≤ Memory.read s.pc s.mem → paramCount ((Memory.read s.pc s.mem).toNat % 100) = some n →
    (Memory.read s.pc s.mem).toNat / 10 ^ (n + 2) ≠ 0 →
    stepReport p s = .stepped (.faulted .invalidOpcodeFault)
      { s with fault := some .invalidOpcodeFault, extent := max s.extent (s.pc + 1) }

/-- The opcode words of legal instructions are the 93 of R66's table, 99 under JUMP_TARGET_KIND = value (a rule the spec
marks as derived). The order of the mode digits in a word is the spec's own decision D1 (conflict C1; log entry 6), and the
setting of JUMP_TARGET_KIND is open (D19; log entry 5). -/
def Obligations.LegalWordsAreTheTable : Prop :=
  (canonicalWords [0, 2]).length = 93 ∧ (canonicalWords [0, 2]).Nodup ∧
  (canonicalWords [0, 1, 2]).length = 99 ∧ (canonicalWords [0, 1, 2]).Nodup ∧
  ∀ (p : Params) (w : Nat),
    (∃ i : Instr, i.legalModes p = true ∧ i.opcodeWord = w) ↔
      w ∈ canonicalWords (match p.jumpTargetKind with
        | .address => [0, 2]
        | .value => [0, 1, 2])

/-! ### Memory -/

/-- R35: a negative address raises AddressFault; an address at or beyond MEM_LIMIT is refused; any other returns the cell
and grows the extent over it, and changes nothing else. A cell at or beyond the extent reads 0 where every listed cell is
below the extent. -/
def Obligations.MemReadFollowsItsRule : Prop :=
  ∀ (p : Params) (addr : Int) (s : State),
    if addr < 0 then memRead p addr s = .raise .addressFault s
    else if inMemory p addr.toNat = false then memRead p addr s = .refuse .memLimit
    else memRead p addr s = .ok (Memory.read addr.toNat s.mem) { s with extent := max s.extent (addr.toNat + 1) } ∧
      (Memory.below s.extent s.mem = true → s.extent ≤ addr.toNat → Memory.read addr.toNat s.mem = 0)

/-- R36: a write faults and is refused as a read is; else the cell reads back as the value, every other cell as before,
the extent covers the address, and nothing else changes. -/
def Obligations.MemWriteFollowsItsRule : Prop :=
  ∀ (p : Params) (addr : Int) (v : Int) (s : State), Memory.wf s.mem = true →
    if addr < 0 then memWrite p addr v s = .raise .addressFault s
    else if inMemory p addr.toNat = false then memWrite p addr v s = .refuse .memLimit
    else ∃ m, memWrite p addr v s = .ok () { s with mem := m, extent := max s.extent (addr.toNat + 1) } ∧
      Memory.read addr.toNat m = v ∧ (∀ b, b ≠ addr.toNat → Memory.read b m = Memory.read b s.mem) ∧
      Memory.wf m = true

/-- What a parameter resolves to, written out: `v` itself for an immediate read (R60); for position mode (R59) and relative
mode (R62) the address `v` or the exact sum `rb + v` if it is not negative, which the address kind returns and the read
kind reads through MemRead. A negative address raises AddressFault wherever it is referenced, in a read, in a write and in
a resolution of either kind (R37): it is never wrapped or clamped. -/
def Obligations.ResolveFollowsItsRules : Prop :=
  ∀ (p : Params) (s : State) (v : Int),
    (∀ (addr w : Int), addr < 0 →
      memRead p addr s = .raise .addressFault s ∧ memWrite p addr w s = .raise .addressFault s) ∧
    resolve p .read ⟨.immediate, v⟩ s = .ok v s ∧
    (v < 0 → ∀ kind, resolve p kind ⟨.position, v⟩ s = .raise .addressFault s) ∧
    (0 ≤ v → resolve p .address ⟨.position, v⟩ s = .ok v s ∧ resolve p .read ⟨.position, v⟩ s = memRead p v s ∧
      (inMemory p v.toNat = true → resolve p .read ⟨.position, v⟩ s =
        .ok (Memory.read v.toNat s.mem) { s with extent := max s.extent (v.toNat + 1) })) ∧
    (s.rb + v < 0 → ∀ kind, resolve p kind ⟨.relative, v⟩ s = .raise .addressFault s) ∧
    (0 ≤ s.rb + v → resolve p .address ⟨.relative, v⟩ s = .ok (s.rb + v) s ∧
      resolve p .read ⟨.relative, v⟩ s = memRead p (s.rb + v) s ∧
      (inMemory p (s.rb + v).toNat = true → resolve p .read ⟨.relative, v⟩ s =
        .ok (Memory.read (s.rb + v).toNat s.mem) { s with extent := max s.extent ((s.rb + v).toNat + 1) }))

/-- An instruction with a parameter whose resolved address is negative, `v` in position mode or `rb + v` in relative mode,
faults when no parameter before it does (R37; the order is the spec's D8, the fault entry its D7). That the target of JNZ
and JZ is of the address kind, JUMP_TARGET_KIND = address, is an open parameter at the spec's default (D19; log entry 5), and
that it is resolved whether or not the jump is taken is its D9 (log entry 24). -/
def Obligations.NegativeAddressFaults : Prop :=
  ∀ (i : Instr) (s : State) (k : Nat) (o : Operand), i.operands[k]? = some o →
    noFaultBefore params i s.rb k = true →
    ((o.mode = .position ∧ o.raw < 0) ∨ (o.mode = .relative ∧ s.rb + o.raw < 0)) →
    ∃ e, s.extent ≤ e ∧ exec i s = .next { s with fault := some .addressFault, extent := e }

/-- A store into a cell of the next instruction is seen by the next fetch, with no barrier (R47). After each of the five
storing instructions (ADD, MUL, LT, EQ, IN), whatever the stored value `v` and whichever of the four cells from the new
program counter on it goes to, that cell of the next fetch is `v`, and the next step runs the instruction those cells
decode to. -/
def Obligations.StoreIsSeenByNextFetch : Prop :=
  ∀ (s : State) (a b dst : Operand) (k : Nat), Memory.wf s.mem = true → k < 4 →
    let seen (i : Instr) (v : Int) : Prop :=
      operandAddress s.rb dst = ((s.pc + i.length + k : Nat) : Int) →
      ∃ t, exec i s = .next t ∧ t.pc = s.pc + i.length ∧ (nextCells t)[k]? = some v ∧
        ∀ j rest, decode params.strictDecode (nextCells t) = .ok (j, rest) →
          fetchDecode params t = .ok j { t with extent := max t.extent (t.pc + 1) } ∧
          (running s = true → step t = exec j { t with extent := max t.extent (t.pc + 1) })
    (storeReady s a b dst →
      (inCell params (readValue s a + readValue s b) = true → seen (.add a b dst) (readValue s a + readValue s b)) ∧
      (inCell params (readValue s a * readValue s b) = true → seen (.mul a b dst) (readValue s a * readValue s b)) ∧
      seen (.lt a b dst) (if readValue s a < readValue s b then 1 else 0) ∧
      seen (.eq a b dst) (if readValue s a = readValue s b then 1 else 0)) ∧
    ∀ x rest, addressable s dst = true → s.inq = x :: rest → pcFits params (s.pc + 2) = true → seen (.input dst) x

/-- No result depends on the extent (R14, D15): from two states that differ in the extent only, a step ends in two states
that differ in the extent only. -/
def Obligations.ExtentIsNotObservable : Prop :=
  ∀ (s t : State) (e : Nat), step s = .next t →
    ∃ e', step { s with extent := e } = .next { t with extent := e' }

/-! ### Resolution -/

/-- The first parameter, in the order 1, 2, 3, that has a fault is the one whose fault the instruction raises, used or
not, and nothing but the extent changes besides the fault status (R63, R64, R111; the order is the spec's D8, D9). The target
of JNZ and JZ is of the address kind here, JUMP_TARGET_KIND = address, an open parameter at the spec's default (D19; log
entry 5). -/
def Obligations.FirstParameterFaultIsRaised : Prop :=
  ∀ (i : Instr) (s : State) (f : FaultKind), firstParamFault params i s.rb = some f →
    ∃ e, s.extent ≤ e ∧ exec i s = .next { s with fault := some f, extent := e }

/-- A consumed mode digit 3 to 9 raises InvalidModeFault when no parameter before it faults (the spec's D4; the order is its
D8, and that the target of a jump not taken is resolved its D9; log entry 24). -/
def Obligations.ReservedModeFaults : Prop :=
  ∀ (i : Instr) (s : State) (k d : Nat) (o : Operand), i.operands[k]? = some o →
    noFaultBefore params i s.rb k = true → o.mode = .reserved d →
    ∃ e, s.extent ≤ e ∧ exec i s = .next { s with fault := some .invalidModeFault, extent := e }

/-- Immediate mode on an address-kind parameter raises InvalidModeFault and is not treated as position mode (R61; the fault's
name is the spec's D4). The extent is the one the fetches leave. That the target of JNZ and JZ is such a parameter is
JUMP_TARGET_KIND = address, an open parameter at the spec's default (R61, D19; log entry 5), and that it faults whether or not
the jump is taken is the spec's own decision D9 (R64; log entry 24). -/
def Obligations.ImmediateDestinationFaults : Prop :=
  ∀ (s : State) (a b dst : Operand), readable s a = true → readable s b = true → dst.mode = .immediate →
    (∀ i ∈ [Instr.add a b dst, Instr.mul a b dst, Instr.lt a b dst, Instr.eq a b dst],
      exec i s = .next { s with fault := some .invalidModeFault, extent := extentOver s.extent (storeReads s a b) }) ∧
    exec (.input dst) s = .next { s with fault := some .invalidModeFault, extent := extentOver s.extent [s.pc + 1] } ∧
    (∀ i ∈ [Instr.jnz a dst, Instr.jz a dst],
      exec i s = .next { s with fault := some .invalidModeFault,
                                extent := extentOver s.extent (readCells s 1 a ++ [s.pc + 2]) })

/-! ### Instructions: where each completes, and in which state -/

/-- ADD (R70): with its parameters resolved and the sum in range, the sum is stored at `dst` and `pc` advances by 4. -/
def Obligations.AddStoresTheSum : Prop :=
  ∀ (s : State) (a b dst : Operand), storeReady s a b dst → inCell params (readValue s a + readValue s b) = true →
    exec (.add a b dst) s = .next (afterStore s a b dst (readValue s a + readValue s b))

/-- MUL (R71): likewise with the product. -/
def Obligations.MulStoresTheProduct : Prop :=
  ∀ (s : State) (a b dst : Operand), storeReady s a b dst → inCell params (readValue s a * readValue s b) = true →
    exec (.mul a b dst) s = .next (afterStore s a b dst (readValue s a * readValue s b))

/-- LT (R79): 1 if `a < b` as signed integers, else 0. -/
def Obligations.LtStoresTheComparison : Prop :=
  ∀ (s : State) (a b dst : Operand), storeReady s a b dst →
    exec (.lt a b dst) s = .next (afterStore s a b dst (if readValue s a < readValue s b then 1 else 0))

/-- EQ (R80): 1 if `a = b`, else 0. -/
def Obligations.EqStoresTheComparison : Prop :=
  ∀ (s : State) (a b dst : Operand), storeReady s a b dst →
    exec (.eq a b dst) s = .next (afterStore s a b dst (if readValue s a = readValue s b then 1 else 0))

/-- IN (R72) with a value waiting: the oldest value is popped and stored at `dst`, and `pc` advances by 2. -/
def Obligations.InputPopsTheOldestValue : Prop :=
  ∀ (s : State) (dst : Operand) (x : Int) (rest : List Int), addressable s dst = true → s.inq = x :: rest →
    pcFits params (s.pc + 2) = true →
    exec (.input dst) s = .next { s with
      mem := Memory.write (operandAddress s.rb dst).toNat x s.mem
      extent := extentOver s.extent [s.pc + 1, (operandAddress s.rb dst).toNat]
      inq := rest
      pc := s.pc + 2 }

/-- IN (R72) with an empty queue: it stalls while the host has not raised `in_closed`, and raises InputStarvationFault
once it has; no value is ever invented. The split by `in_closed` is the spec's D10. -/
def Obligations.InputOnEmptyQueue : Prop :=
  ∀ (s : State) (dst : Operand), addressable s dst = true → s.inq = [] →
    (s.inClosed = false → exec (.input dst) s = .next { s with extent := extentOver s.extent [s.pc + 1] }) ∧
    (s.inClosed = true → exec (.input dst) s =
      .next { s with fault := some .inputStarvationFault, extent := extentOver s.extent [s.pc + 1] })

/-- OUT (R73): the value is pushed at the back of `outq` and `pc` advances by 2. It never waits, whatever the queue's
length, because OUT_DEPTH is infinite here: an open parameter at the spec's default (R8, D11; log entry 3). -/
def Obligations.OutputPushesAtTheBack : Prop :=
  ∀ (s : State) (a : Operand), readable s a = true → pcFits params (s.pc + 2) = true →
    exec (.output a) s = .next { s with
      extent := extentOver s.extent (readCells s 1 a)
      outq := s.outq ++ [readValue s a]
      pc := s.pc + 2 }

/-- OUT with a finite OUT_DEPTH (the parameter of R8, D11): on a full queue it stalls and drops nothing. -/
def Obligations.OutputStallsOnFullQueue : Prop :=
  ∀ (p : Params) (s : State) (a : Operand) (d : Nat), p.memLimit = none → p.outDepth = some d →
    readable s a = true → s.outq.length = d →
    runInstr p (.output a) s = .stall { s with extent := extentOver s.extent (readCells s 1 a) }

/-- JNZ (R75, R76): on a non-zero value `pc` becomes the resolved target address itself, else `pc + 3`; nothing else but
the extent changes. That the target is an address is JUMP_TARGET_KIND = address, the spec's default (D19; log entry 5). -/
def Obligations.JnzSetsThePc : Prop :=
  ∀ (s : State) (a target : Operand), readable s a = true → addressable s target = true →
    pcFits params (if readValue s a ≠ 0 then (operandAddress s.rb target).toNat else s.pc + 3) = true →
    exec (.jnz a target) s = .next { s with
      extent := extentOver s.extent (readCells s 1 a ++ [s.pc + 2])
      pc := if readValue s a ≠ 0 then (operandAddress s.rb target).toNat else s.pc + 3 }

/-- JZ (R75, R77): likewise on a zero value, under the same JUMP_TARGET_KIND (D19; log entry 5). -/
def Obligations.JzSetsThePc : Prop :=
  ∀ (s : State) (a target : Operand), readable s a = true → addressable s target = true →
    pcFits params (if readValue s a = 0 then (operandAddress s.rb target).toNat else s.pc + 3) = true →
    exec (.jz a target) s = .next { s with
      extent := extentOver s.extent (readCells s 1 a ++ [s.pc + 2])
      pc := if readValue s a = 0 then (operandAddress s.rb target).toNat else s.pc + 3 }

/-- JNZ and JZ under JUMP_TARGET_KIND = value (the spec's marked variant R78, D19): the target is a read value; a taken
jump to a negative value raises AddressFault, one not taken does not. -/
def Obligations.JumpTargetValueVariant : Prop :=
  ∀ (p : Params) (s : State) (a target : Operand), p.jumpTargetKind = .value → p.memLimit = none →
    readable s a = true → readable s target = true →
    pcFits p (readValue s target).toNat = true → pcFits p (s.pc + 3) = true →
    let e := extentOver s.extent (readCells s 1 a ++ readCells s 2 target)
    let jumped : Act Unit :=
      if readValue s target < 0 then .raise .addressFault { s with extent := e }
      else .ok () { s with extent := e, pc := (readValue s target).toNat }
    let fellThrough : Act Unit := .ok () { s with extent := e, pc := s.pc + 3 }
    runInstr p (.jnz a target) s = (if readValue s a ≠ 0 then jumped else fellThrough) ∧
    runInstr p (.jz a target) s = (if readValue s a = 0 then jumped else fellThrough)

/-- ARB (R82): the value, read with the old `rb`, is added to `rb`, and `pc` advances by 2. -/
def Obligations.ArbAddsToRb : Prop :=
  ∀ (s : State) (a : Operand), readable s a = true → inCell params (s.rb + readValue s a) = true →
    pcFits params (s.pc + 2) = true →
    exec (.arb a) s = .next { s with
      extent := extentOver s.extent (readCells s 1 a)
      rb := s.rb + readValue s a
      pc := s.pc + 2 }

/-- HLT (R83) sets `halted`, leaves `pc` and all else but the extent grown by the fetch, and every later step does nothing.
With STRICT_DECODE = false, the setting the spec takes (R57, its decision D5; log entry 4), any non-negative word ending in
the digits 99 is a HLT. -/
def Obligations.HltIsTerminal : Prop :=
  (∀ s : State, exec .hlt s = .next { s with halted := true }) ∧
  ∀ s : State, running s = true → 0 ≤ Memory.read s.pc s.mem → (Memory.read s.pc s.mem).toNat % 100 = 99 →
    step s = .next { s with halted := true, extent := max s.extent (s.pc + 1) } ∧
    step { s with halted := true, extent := max s.extent (s.pc + 1) } =
      .next { s with halted := true, extent := max s.extent (s.pc + 1) }

/-! ### Overflow -/

/-- The cell range and the overflow filter under every setting (the parameters of R5, R6 and R69, D2). With W infinite
every integer is a cell value and the filter returns every result. With a finite W the range is `-2^(W-1)` to
`2^(W-1) - 1`, and the program counter's is `0` to `2^(W-1) - 1` (R15, the spec's own decision D21; log entry 24); a result in range is returned; else under `fault` OverflowFault
is raised, and under `wrap` the one integer of the range congruent to it modulo 2^W. -/
def Obligations.OverflowFilterFollowsPolicy : Prop :=
  ∀ (p : Params) (r : Int) (s : State),
    (p.width = none → inCell p r = true ∧ (∀ t, pcFits p t = true) ∧ overflowFilter p r s = .ok r s) ∧
    ∀ w, p.width = some w → 1 ≤ w →
      let range (v : Int) : Prop := -(2 : Int) ^ (w - 1) ≤ v ∧ v ≤ (2 : Int) ^ (w - 1) - 1
      (inCell p r = true ↔ range r) ∧ (∀ t : Nat, pcFits p t = true ↔ (t : Int) ≤ (2 : Int) ^ (w - 1) - 1) ∧
      (range r → overflowFilter p r s = .ok r s) ∧
      (¬ range r → p.overflowPolicy = .fault → overflowFilter p r s = .raise .overflowFault s) ∧
      (¬ range r → p.overflowPolicy = .wrap →
        ∃ v, overflowFilter p r s = .ok v s ∧ range v ∧ (2 : Int) ^ w ∣ (v - r) ∧
          ∀ u, range u → (2 : Int) ^ w ∣ (u - r) → u = v)

/-- ADD, MUL and ARB whose exact result is outside the range raise OverflowFault before they write: nothing but the
extent and the fault status changes (R70, R71, R82; the policy is the spec's D2). -/
def Obligations.OverflowFaultsBeforeTheWrite : Prop :=
  ∀ (s : State) (a b dst : Operand), readable s a = true → readable s b = true → addressable s dst = true →
    (inCell params (readValue s a + readValue s b) = false →
      exec (.add a b dst) s =
        .next { s with fault := some .overflowFault, extent := extentOver s.extent (storeReads s a b) }) ∧
    (inCell params (readValue s a * readValue s b) = false →
      exec (.mul a b dst) s =
        .next { s with fault := some .overflowFault, extent := extentOver s.extent (storeReads s a b) }) ∧
    (inCell params (s.rb + readValue s a) = false →
      exec (.arb a) s =
        .next { s with fault := some .overflowFault, extent := extentOver s.extent (readCells s 1 a) })

/-- A program counter that would exceed MAX_CELL raises OverflowFault (R16, the spec's D21; log entry 24) in every
instruction that moves it, and the instruction's own effect does not happen (log entry 9). W = 64 and OVERFLOW_POLICY = fault
are open parameters as the spec takes them (D2; log entry 2), and the target of a jump is an address by JUMP_TARGET_KIND =
address, the spec's default (D19; log entry 5). -/
def Obligations.PcBeyondMaxFaults : Prop :=
  ∀ (s : State) (a b dst : Operand), readable s a = true → readable s b = true → addressable s dst = true →
    let faults (i : Instr) : Prop :=
      ∃ e, s.extent ≤ e ∧ exec i s = .next { s with fault := some .overflowFault, extent := e }
    (pcFits params (s.pc + 4) = false → ∀ i ∈ [Instr.add a b dst, Instr.mul a b dst, Instr.lt a b dst, Instr.eq a b dst],
      faults i) ∧
    (pcFits params (s.pc + 2) = false → faults (.output a) ∧ faults (.arb a) ∧ (s.inq ≠ [] → faults (.input dst))) ∧
    (pcFits params (if readValue s a ≠ 0 then (operandAddress s.rb dst).toNat else s.pc + 3) = false →
      faults (.jnz a dst)) ∧
    (pcFits params (if readValue s a = 0 then (operandAddress s.rb dst).toNat else s.pc + 3) = false →
      faults (.jz a dst))

/-- Under OVERFLOW_POLICY = wrap an instruction whose program counter would exceed MAX_CELL is refused (R16, D21): ADD,
MUL, LT, EQ, IN with a value waiting, OUT on a queue that is not full, ARB, and JNZ and JZ under either JUMP_TARGET_KIND. -/
def Obligations.PcBeyondMaxRefusedUnderWrap : Prop :=
  ∀ (p : Params) (s : State) (a b dst : Operand), p.overflowPolicy = .wrap → p.memLimit = none →
    readable s a = true → readable s b = true → addressable s dst = true →
    let refused (i : Instr) : Prop := runInstr p i s = .refuse .pcBeyondMax
    (pcFits p (s.pc + 4) = false → ∀ i ∈ [Instr.add a b dst, Instr.mul a b dst, Instr.lt a b dst, Instr.eq a b dst],
      refused i) ∧
    (pcFits p (s.pc + 2) = false →
      refused (.arb a) ∧ (queueFull p.outDepth s.outq = false → refused (.output a)) ∧
      (s.inq ≠ [] → refused (.input dst))) ∧
    (p.jumpTargetKind = .address →
      (pcFits p (if readValue s a ≠ 0 then (operandAddress s.rb dst).toNat else s.pc + 3) = false →
        refused (.jnz a dst)) ∧
      (pcFits p (if readValue s a = 0 then (operandAddress s.rb dst).toNat else s.pc + 3) = false →
        refused (.jz a dst))) ∧
    (p.jumpTargetKind = .value → 0 ≤ readValue s b →
      (pcFits p (if readValue s a ≠ 0 then (readValue s b).toNat else s.pc + 3) = false → refused (.jnz a b)) ∧
      (pcFits p (if readValue s a = 0 then (readValue s b).toNat else s.pc + 3) = false → refused (.jz a b)))

/-! ### Frames -/

/-- What ADD, MUL, LT and EQ leave: every cell but the one at the address of `dst`, every register but `pc` and, on a
fault, the fault status; and a fault leaves memory and `pc` too. -/
def Obligations.StoreInstructionsFrame : Prop :=
  ∀ (s t : State) (a b dst : Operand),
    ∀ i ∈ [Instr.add a b dst, Instr.mul a b dst, Instr.lt a b dst, Instr.eq a b dst], exec i s = .next t →
      t.rb = s.rb ∧ t.halted = s.halted ∧ t.inq = s.inq ∧ t.outq = s.outq ∧ t.inClosed = s.inClosed ∧
      s.extent ≤ t.extent ∧
      (∀ x : Nat, (x : Int) ≠ operandAddress s.rb dst → Memory.read x t.mem = Memory.read x s.mem) ∧
      (t.fault = s.fault ∨ (t.mem = s.mem ∧ t.pc = s.pc))

/-- What IN leaves: every cell but the one at the address of `dst`; `rb`, `halted`, `outq` and `in_closed`; the queue loses
at most its oldest value; a fault leaves memory, `pc` and the queue. -/
def Obligations.InputFrame : Prop :=
  ∀ (s t : State) (dst : Operand), exec (.input dst) s = .next t →
    t.rb = s.rb ∧ t.halted = s.halted ∧ t.outq = s.outq ∧ t.inClosed = s.inClosed ∧ s.extent ≤ t.extent ∧
    (∀ x : Nat, (x : Int) ≠ operandAddress s.rb dst → Memory.read x t.mem = Memory.read x s.mem) ∧
    (t.inq = s.inq ∨ ∃ v, s.inq = v :: t.inq) ∧
    (t.fault = s.fault ∨ (t.mem = s.mem ∧ t.pc = s.pc ∧ t.inq = s.inq))

/-- OUT, JNZ, JZ, ARB and HLT write no memory and pop no input; each leaves every register but its own: OUT `outq`, ARB
`rb`, HLT `halted` (and not `pc`), all of them `pc` and, on a fault, only the fault status. -/
def Obligations.NonStoringFrame : Prop :=
  ∀ (s t : State) (a target : Operand),
    ∀ i ∈ [Instr.output a, Instr.jnz a target, Instr.jz a target, Instr.arb a, Instr.hlt], exec i s = .next t →
      (∀ x : Nat, Memory.read x t.mem = Memory.read x s.mem) ∧ t.inq = s.inq ∧ t.inClosed = s.inClosed ∧
      s.extent ≤ t.extent ∧
      (i = .output a ∨ t.outq = s.outq) ∧ (i = .arb a ∨ t.rb = s.rb) ∧ (i = .hlt ∨ t.halted = s.halted) ∧
      (i = .hlt → t.pc = s.pc) ∧
      (t.fault = s.fault ∨ (t.pc = s.pc ∧ t.outq = s.outq ∧ t.rb = s.rb ∧ t.halted = s.halted))

/-! ### The Engine -/

/-- When the cells at `pc` decode to an instruction, the step of a Running instance is the meaning of that instruction in
the state with the opcode word's cell accessed (R86 lines 1 to 7); nothing else is around it. -/
def Obligations.StepRunsTheDecodedInstruction : Prop :=
  ∀ (s : State) (i : Instr) (rest : List Int), running s = true →
    decode params.strictDecode (Memory.read s.pc s.mem :: operandCells s) = .ok (i, rest) →
    step s = exec i { s with extent := max s.extent (s.pc + 1) }

/-- `step` is the state half of the step with its result, `stepReport`, under the setting the spec takes (R86). -/
def Obligations.StepIsTheReportsState : Prop :=
  ∀ s : State, step s = (stepReport params s).outcome

/-- The program counter after each outcome of a step (R87): unchanged when halted by HLT, stalled, faulted or idle; else
advanced by 4, 2 or 3, or the resolved target of a taken jump. That this target is the address the parameter names (R75) is
JUMP_TARGET_KIND = address, an open parameter at the spec's default (D19; log entry 5). -/
def Obligations.PcAfterEachOutcome : Prop :=
  ∀ (s t : State) (r : StepResult), stepReport params s = .stepped r t →
    (r ≠ .done → t.pc = s.pc) ∧
    (r = .done → ∃ i rest, decode params.strictDecode (Memory.read s.pc s.mem :: operandCells s) = .ok (i, rest) ∧
      match i with
      | .add _ _ _ | .mul _ _ _ | .lt _ _ _ | .eq _ _ _ => t.pc = s.pc + 4
      | .input _ | .output _ | .arb _ => t.pc = s.pc + 2
      | .jnz a target =>
        if readValue s a ≠ 0 then (t.pc : Int) = operandAddress s.rb target else t.pc = s.pc + 3
      | .jz a target =>
        if readValue s a = 0 then (t.pc : Int) = operandAddress s.rb target else t.pc = s.pc + 3
      | .hlt => t.pc = s.pc)

/-- A Halted or Faulted instance is idle: its step changes nothing, the extent included (R18; for Faulted the spec's
D13). -/
def Obligations.StoppedInstanceIsIdle : Prop :=
  ∀ (p : Params) (s : State), s.halted = true ∨ s.fault ≠ none →
    step s = .next s ∧ stepReport p s = .stepped .idle s

/-- A stalled step changes nothing but the extent, and the next attempt stalls in the same state (R88, the spec's D10). -/
def Obligations.StalledStepChangesOnlyExtent : Prop :=
  ∀ (p : Params) (s t : State), stepReport p s = .stepped .stalled t →
    t = { s with extent := t.extent } ∧ s.extent ≤ t.extent ∧ stepReport p t = .stepped .stalled t

/-- A fault is precise (R112, the spec's D7): a faulting step changes the fault status and the extent only, and no later
step changes anything. -/
def Obligations.FaultsArePrecise : Prop :=
  ∀ (p : Params) (s t : State) (f : FaultKind), stepReport p s = .stepped (.faulted f) t →
    t = { s with fault := some f, extent := t.extent } ∧ s.extent ≤ t.extent ∧
    stepReport p t = .stepped .idle t

/-- Under the setting the spec takes every step of every state has a next state: no instruction is refused. This rests on
the model's choices: MEM_LIMIT is infinite (log entry 3), addresses above MAX_CELL included, which the model accesses
although R62 says that every realisable memory refuses them (log entry 14), and faults and stalls are next states (log
entry 7). -/
def Obligations.EveryStepHasANextState : Prop :=
  ∀ s : State, ∃ t, step s = .next t

/-- The invariant of an instance is kept by every step: memory canonical, in range and below the extent, `pc`, `rb` and
the queues in their ranges, never both Halted and Faulted (R13 to R21). -/
def Obligations.InvariantKeptByEveryStep : Prop :=
  ∀ s t : State, State.Ok params s → step s = .next t → State.Ok params t

/-- The same under every parameter setting with W infinite or at least 2 (R5 to R10; log entry 21). -/
def Obligations.InvariantKeptUnderEverySetting : Prop :=
  ∀ (p : Params) (s t : State) (r : StepResult), paramsOk p → State.Ok p s → stepReport p s = .stepped r t →
    State.Ok p t

/-- The invariant holds right after reset with the empty Program (R32). -/
def Obligations.InvariantHoldsAtReset : Prop := State.Ok params State.reset

/-- Only ARB changes the relative base (R17). -/
def Obligations.OnlyArbChangesRb : Prop :=
  ∀ s t : State, step s = .next t → t.rb ≠ s.rb →
    ∃ a rest, decode params.strictDecode (Memory.read s.pc s.mem :: operandCells s) = .ok (.arb a, rest)

/-- `halted` (R18), under every parameter setting. A step sets it only if the instruction at `pc` is a HLT (operation 99),
and no step or transaction of the host but a reset clears it. A step of a halted instance changes nothing: memory, extent,
`pc`, `rb`, `fault` and the queues are as before. The host can read it, and can still push to and pop from a halted instance. -/
def Obligations.OnlyHltHalts : Prop :=
  ∀ (p : Params) (s : State),
    (∀ r t, stepReport p s = .stepped r t → t.halted ≠ s.halted →
      t.halted = true ∧ ∃ rest, decode p.strictDecode (nextCells s) = .ok (.hlt, rest)) ∧
    (s.halted = true → step s = .next s ∧ ∀ r t, stepReport p s = .stepped r t → t = s) ∧
    ((∀ v s', pushInput p v s = some s' → s'.halted = s.halted) ∧ (popOutput s).2.halted = s.halted ∧
      (setInClosed s).halted = s.halted ∧
      ∀ program padding s', resetWith p program padding = some s' → s'.halted = false) ∧
    (status p s).halted = s.halted ∧
    (s.halted = true →
      (∀ v, inCell p v = true → queueFull p.inDepth s.inq = false →
        pushInput p v s = some { s with inq := s.inq ++ [v] }) ∧
      ∀ x rest, s.outq = x :: rest → popOutput s = (some x, { s with outq := rest }))

/-- A bounded run that has ended stays ended, in the same state, however much longer it is given (R90, R92). -/
def Obligations.EndedRunStaysEnded : Prop :=
  ∀ (p : Params) (n k : Nat) (s t : State), runFor p n s = .ended t →
    runFor p (n + k) s = .ended t ∧ running t = false

/-- A push by the host commutes with a step that does not stall or starve (R91): when the host pushes does not matter to
the result. -/
def Obligations.PushCommutesWithStep : Prop :=
  ∀ (p : Params) (v : Int) (s s' t : State) (r : StepResult), queueFits p.inDepth s.inq = true →
    pushInput p v s = some s' → stepReport p s = .stepped r t → r ≠ .stalled → r ≠ .faulted .inputStarvationFault →
    ∃ t', stepReport p s' = .stepped r t' ∧ pushInput p v t = some t'

/-- `waiting_input` is true exactly when the next step stalls on Input (R29, the spec's D17), where OUT cannot stall. -/
def Obligations.WaitingInputMeansTheStepStalls : Prop :=
  ∀ (p : Params) (s : State), p.outDepth = none →
    (waitingInput p s = true ↔ ∃ t, stepReport p s = .stepped .stalled t)

/-! ### The host's transactions and the wiring -/

/-- `reset(P, Z)` (R32, R125, the spec's D6): cell `a` is `p_a` below the Program's length and 0 above, the extent is
`L + Z`, and every register has its stated value; a Program with a cell out of range is refused (R127, D20). The spec does not say what
reset does when `L` or `L + Z` exceeds a finite MEM_LIMIT: that such a reset is accepted and loads every cell is the model's
choice (log entry 25, DESIGN CHOICE). -/
def Obligations.ResetLoadsTheProgram : Prop :=
  ∀ (p : Params) (program : List Int) (padding : Nat),
    if program.all (fun v => inCell p v) = true then
      ∃ s, resetWith p program padding = some s ∧
        (∀ a, Memory.read a s.mem = program.getD a 0) ∧ Memory.wf s.mem = true ∧
        s.extent = program.length + padding ∧ s.pc = 0 ∧ s.rb = 0 ∧ s.halted = false ∧ s.fault = none ∧
        s.inq = [] ∧ s.outq = [] ∧ s.inClosed = false
    else resetWith p program padding = none

/-- The invariant holds after every reset, and every transaction of the host keeps it (R84, R95, R97, R125). -/
def Obligations.HostTransactionsKeepInvariant : Prop :=
  ∀ (p : Params),
    (∀ program padding s, resetWith p program padding = some s → State.Ok p s) ∧
    (∀ s, State.Ok p s →
      (∀ v s', pushInput p v s = some s' → State.Ok p s') ∧ State.Ok p (popOutput s).2 ∧ State.Ok p (setInClosed s))

/-- The queues keep order (R93, R94, R97): a push adds one value at the back; it is refused on a full queue (D11) and for a
value outside the cell range (R95, D20); a pop returns the oldest value, or none and no change on an empty queue. -/
def Obligations.QueuesAreFifo : Prop :=
  ∀ (p : Params) (s : State),
    (∀ v, inCell p v = true →
      pushInput p v s = if queueFull p.inDepth s.inq then none else some { s with inq := s.inq ++ [v] }) ∧
    (∀ v, inCell p v = false → pushInput p v s = none) ∧
    (s.outq = [] → popOutput s = (none, s)) ∧
    (∀ x rest, s.outq = x :: rest → popOutput s = (some x, { s with outq := rest }))

/-- A dump shows the cells `0..extent-1` in order, and `pc`, `rb` and `extent`; at an instance that meets the invariant
every cell it leaves out holds 0 (R14, R100). -/
def Obligations.DumpShowsTheTape : Prop :=
  ∀ (p : Params) (s : State), State.Ok p s →
    (dump s).tape.length = s.extent ∧ (dump s).pc = s.pc ∧ (dump s).rb = s.rb ∧ (dump s).extent = s.extent ∧
    ∀ a, (dump s).tape.getD a 0 = Memory.read a s.mem

/-- One transfer over a link (R103) takes the oldest output of the first instance to the back of the second's input and
changes nothing else in either. -/
def Obligations.TransferMovesOneValue : Prop :=
  ∀ (p : Params) (a b a' b' : State), transfer p a b = some (a', b') →
    ∃ v, a.outq = v :: a'.outq ∧ a' = { a with outq := a'.outq } ∧ b' = { b with inq := b.inq ++ [v] }

/-- A deadlocked ring (R124; that queued outputs count as in flight is log entry 16) stays deadlocked when any of its
instances is stepped, and closing an instance's input turns its next step into InputStarvationFault. -/
def Obligations.DeadlockIsPermanent : Prop :=
  ∀ (p : Params) (ring : List State) (k : Nat) (s : State), ringDeadlocked p ring = true → ring[k]? = some s →
    (∃ t, stepReport p s = .stepped .stalled t ∧ t = { s with extent := t.extent } ∧
      ringDeadlocked p (ring.set k t) = true) ∧
    ∃ t, stepReport p (setInClosed s) = .stepped (.faulted .inputStarvationFault) t

/-- Instances share nothing (R30, R120): a step of one instance of a network leaves every other instance and the links;
a fault stays with its instance (R123). -/
def Obligations.NetworkStepIsLocal : Prop :=
  ∀ (p : Params) (net after : Network) (k : Nat) (r : StepResult), net.stepAt p k = some (r, after) →
    after.links = net.links ∧ after.instances.length = net.instances.length ∧
    (∀ j, j ≠ k → after.instances[j]? = net.instances[j]?) ∧
    ∃ s t, net.instances[k]? = some s ∧ stepReport p s = .stepped r t ∧ after.instances[k]? = some t

end
end

