-- ==== Sys2Proof/Laws/Decode.lean ====
section
/-! SUPPORT. Small lemmas of the decoder and the encoder. -/

namespace Sys2Proof

/-- A well-formed mode comes back from its digit. -/
theorem modeOfDigit_digit {m : Mode} (h : m.wellFormed = true) : modeOfDigit m.digit = m := by
  cases m with
  | reserved d =>
    simp only [Mode.wellFormed, Bool.and_eq_true, decide_eq_true_eq] at h
    obtain ⟨h1, h2⟩ := h
    match d, h1 with
    | d + 3, _ => rfl
  | _ => rfl

/-- Every digit comes back from its mode. -/
theorem digit_modeOfDigit (d : Nat) : (modeOfDigit d).digit = d := by
  match d with
  | 0 => rfl
  | 1 => rfl
  | 2 => rfl
  | _ + 3 => rfl

/-- The mode of a decimal digit is well formed. -/
theorem modeOfDigit_wellFormed {d : Nat} (h : d < 10) : (modeOfDigit d).wellFormed = true := by
  match d with
  | 0 => rfl
  | 1 => rfl
  | 2 => rfl
  | d + 3 => simp [modeOfDigit, Mode.wellFormed]; omega

/-- The digit of a well-formed mode is a decimal digit. -/
theorem mode_digit_lt {m : Mode} (h : m.wellFormed = true) : m.digit < 10 := by
  cases m with
  | reserved d =>
    simp only [Mode.wellFormed, Bool.and_eq_true, decide_eq_true_eq] at h
    simp only [Mode.digit]
    omega
  | _ => simp [Mode.digit]

/-- The encoder writes the opcode word, then one cell per parameter. -/
theorem encode_length (i : Instr) : (encode i).length = i.length := by
  simp [encode, Instr.length, Nat.add_comm]

/-- The selector of an instruction is its operation's, below 100 and with a parameter count. -/
theorem paramCount_selector (i : Instr) : paramCount i.selector = some i.operands.length := by
  cases i <;> rfl

end Sys2Proof
end

