-- ==== Sys2Proof/Laws/Memory.lean ====
section
/-! SUPPORT. The laws of the tape: read after write, and that every memory operation keeps the canonical form. -/

namespace Sys2Proof.Machine

/-- A write leaves every other cell as it was, in any list. -/
theorem read_write_of_ne {a b : Nat} (h : b ≠ a) (v : Int) (m : Memory) :
    Memory.read b (Memory.write a v m) = Memory.read b m := by
  induction m with
  | nil => simp only [Memory.write]; split <;> simp [Memory.read, h]
  | cons c rest ih =>
    obtain ⟨x, y⟩ := c
    simp only [Memory.write]
    split_ifs <;> simp_all [Memory.read]

/-- An address below every listed one reads as unlisted. -/
theorem read_of_all_lt {a : Nat} {m : Memory} (h : m.all (fun c => decide (a < c.1)) = true) :
    Memory.read a m = unlistedCell := by
  induction m with
  | nil => rfl
  | cons c rest ih =>
    obtain ⟨x, y⟩ := c
    simp only [List.all_cons, Bool.and_eq_true, decide_eq_true_eq] at h
    rw [Memory.read, if_neg (by omega), ih h.2]

/-- In a canonical list a write is read back. -/
theorem read_write_self {m : Memory} (h : Memory.wf m = true) (a : Nat) (v : Int) :
    Memory.read a (Memory.write a v m) = v := by
  induction m with
  | nil => simp only [Memory.write]; split <;> simp_all [Memory.read]
  | cons c rest ih =>
    obtain ⟨x, y⟩ := c
    simp only [Memory.wf, Bool.and_eq_true] at h
    simp only [Memory.write]
    split_ifs with h1 h2 h3 h4
    · subst h2
      exact read_of_all_lt (by
        simp only [List.all_cons, Bool.and_eq_true, decide_eq_true_eq]
        refine ⟨h1, ?_⟩
        have := h.1.2
        simp only [List.all_eq_true, decide_eq_true_eq] at this ⊢
        intro c hc; exact lt_trans h1 (this c hc))
    · simp [Memory.read]
    · subst h3; subst h4; exact read_of_all_lt h.1.2
    · simp [Memory.read]
    · simp only [Memory.read, if_neg h3]; exact ih h.2

/-- What is listed after a write was listed before or is the cell written. -/
theorem mem_write {a : Nat} {v : Int} {m : Memory} {c : Nat × Int} (h : c ∈ Memory.write a v m) :
    c ∈ m ∨ c = (a, v) := by
  induction m with
  | nil => simp only [Memory.write] at h; split at h <;> simp_all
  | cons d rest ih =>
    obtain ⟨x, y⟩ := d
    simp only [Memory.write] at h
    split_ifs at h <;> simp only [List.mem_cons] at h ⊢ <;> tauto

/-- Every write keeps the canonical form. -/
theorem write_keeps_wf {m : Memory} (h : Memory.wf m = true) (a : Nat) (v : Int) :
    Memory.wf (Memory.write a v m) = true := by
  induction m with
  | nil => simp only [Memory.write]; split <;> simp_all [Memory.wf]
  | cons c rest ih =>
    obtain ⟨x, y⟩ := c
    have hw := h
    simp only [Memory.wf, Bool.and_eq_true, decide_eq_true_eq, List.all_eq_true] at h
    obtain ⟨⟨hy, hall⟩, hrest⟩ := h
    simp only [Memory.write]
    split_ifs with h1 h2 h3 h4
    · exact hw
    · simp only [Memory.wf, Bool.and_eq_true, decide_eq_true_eq, List.all_eq_true, List.mem_cons]
      refine ⟨⟨h2, ?_⟩, ⟨hy, hall⟩, hrest⟩
      rintro d (rfl | hd)
      · exact h1
      · exact lt_trans h1 (hall d hd)
    · exact hrest
    · subst h3
      simp only [Memory.wf, Bool.and_eq_true, decide_eq_true_eq, List.all_eq_true]
      exact ⟨⟨h4, hall⟩, hrest⟩
    · simp only [Memory.wf, Bool.and_eq_true, decide_eq_true_eq, List.all_eq_true]
      refine ⟨⟨hy, ?_⟩, ih hrest⟩
      intro d hd
      rcases mem_write hd with hd | rfl
      · exact hall d hd
      · simp only; omega

/-- The cells of a loaded list are in canonical form, at or above the first address. -/
theorem ofCells_wf (a : Nat) (vs : List Int) :
    Memory.wf (Memory.ofCells a vs) = true ∧ ∀ c ∈ Memory.ofCells a vs, a ≤ c.1 := by
  induction vs generalizing a with
  | nil => simp [Memory.ofCells, Memory.wf]
  | cons v rest ih =>
    obtain ⟨h1, h2⟩ := ih (a + 1)
    simp only [Memory.ofCells]
    split_ifs with hv
    · exact ⟨h1, fun c hc => Nat.le_of_succ_le (h2 c hc)⟩
    · refine ⟨?_, ?_⟩
      · simp only [Memory.wf, Bool.and_eq_true, decide_eq_true_eq, List.all_eq_true]
        exact ⟨⟨hv, fun c hc => h2 c hc⟩, h1⟩
      · intro c hc
        rcases List.mem_cons.mp hc with rfl | hc
        · exact Nat.le_refl _
        · exact Nat.le_of_succ_le (h2 c hc)

/-- `setCell`, the one operation of the machine that writes memory, keeps the canonical form. -/
theorem setCell_keeps_wf {s : State} (h : Memory.wf s.mem = true) (a : Nat) (v : Int) :
    Memory.wf (setCell a v s).mem = true := write_keeps_wf h a v

/-- `loadCells` keeps the canonical form. -/
theorem loadCells_keeps_wf {s : State} (h : Memory.wf s.mem = true) (a : Nat) (vs : List Int) :
    Memory.wf (loadCells a vs s).mem = true := by
  induction vs generalizing a s with
  | nil => exact h
  | cons v rest ih => exact ih (write_keeps_wf h a v) (a + 1)

/-- The memory of the reset state is canonical. -/
theorem reset_memory_wf : Memory.wf State.reset.mem = true := rfl

/-- A range bound kept by a write of a value in range. -/
theorem write_keeps_inRange {p : Params} {m : Memory} (h : Memory.inRange p m = true) (a : Nat) {v : Int}
    (hv : inCell p v = true) : Memory.inRange p (Memory.write a v m) = true := by
  simp only [Memory.inRange, List.all_eq_true] at h ⊢
  intro c hc
  rcases mem_write hc with hc | rfl
  · exact h c hc
  · exact hv

/-- The listed cells stay below an extent that covers the cell written. -/
theorem write_keeps_below {e e' : Nat} {m : Memory} (h : Memory.below e m = true) (he : e ≤ e') {a : Nat} (ha : a < e')
    (v : Int) : Memory.below e' (Memory.write a v m) = true := by
  simp only [Memory.below, List.all_eq_true, decide_eq_true_eq] at h ⊢
  intro c hc
  rcases mem_write hc with hc | rfl
  · exact lt_of_lt_of_le (h c hc) he
  · exact ha

/-- Whatever is read from memory in range is in range. -/
theorem read_inCell {p : Params} {m : Memory} (h : Memory.inRange p m = true) (h0 : inCell p unlistedCell = true) (a : Nat) :
    inCell p (Memory.read a m) = true := by
  induction m with
  | nil => exact h0
  | cons c rest ih =>
    obtain ⟨x, y⟩ := c
    simp only [Memory.inRange, List.all_cons, Bool.and_eq_true] at h
    simp only [Memory.read]
    split_ifs
    · exact h.1
    · exact ih h.2

end Sys2Proof.Machine
end

