-- ==== Sys2Proof/Laws/State.lean ====
section
/-! SUPPORT. One lemma per field per named update of the state (Machine/Ops.lean), so that no proof unfolds one. -/

namespace Sys2Proof.Machine

@[simp] theorem touch_mem (a : Nat) (s : State) : (touch a s).mem = s.mem := rfl
@[simp] theorem touch_extent (a : Nat) (s : State) : (touch a s).extent = max s.extent (a + 1) := rfl
@[simp] theorem touch_pc (a : Nat) (s : State) : (touch a s).pc = s.pc := rfl
@[simp] theorem touch_rb (a : Nat) (s : State) : (touch a s).rb = s.rb := rfl
@[simp] theorem touch_halted (a : Nat) (s : State) : (touch a s).halted = s.halted := rfl
@[simp] theorem touch_fault (a : Nat) (s : State) : (touch a s).fault = s.fault := rfl
@[simp] theorem touch_inq (a : Nat) (s : State) : (touch a s).inq = s.inq := rfl
@[simp] theorem touch_outq (a : Nat) (s : State) : (touch a s).outq = s.outq := rfl
@[simp] theorem touch_inClosed (a : Nat) (s : State) : (touch a s).inClosed = s.inClosed := rfl

@[simp] theorem setCell_mem (a : Nat) (v : Int) (s : State) : (setCell a v s).mem = Memory.write a v s.mem := rfl
@[simp] theorem setCell_extent (a : Nat) (v : Int) (s : State) : (setCell a v s).extent = s.extent := rfl
@[simp] theorem setCell_pc (a : Nat) (v : Int) (s : State) : (setCell a v s).pc = s.pc := rfl
@[simp] theorem setCell_rb (a : Nat) (v : Int) (s : State) : (setCell a v s).rb = s.rb := rfl
@[simp] theorem setCell_halted (a : Nat) (v : Int) (s : State) : (setCell a v s).halted = s.halted := rfl
@[simp] theorem setCell_fault (a : Nat) (v : Int) (s : State) : (setCell a v s).fault = s.fault := rfl
@[simp] theorem setCell_inq (a : Nat) (v : Int) (s : State) : (setCell a v s).inq = s.inq := rfl
@[simp] theorem setCell_outq (a : Nat) (v : Int) (s : State) : (setCell a v s).outq = s.outq := rfl
@[simp] theorem setCell_inClosed (a : Nat) (v : Int) (s : State) : (setCell a v s).inClosed = s.inClosed := rfl

@[simp] theorem setPc_mem (t : Nat) (s : State) : (setPc t s).mem = s.mem := rfl
@[simp] theorem setPc_extent (t : Nat) (s : State) : (setPc t s).extent = s.extent := rfl
@[simp] theorem setPc_pc (t : Nat) (s : State) : (setPc t s).pc = t := rfl
@[simp] theorem setPc_rb (t : Nat) (s : State) : (setPc t s).rb = s.rb := rfl
@[simp] theorem setPc_halted (t : Nat) (s : State) : (setPc t s).halted = s.halted := rfl
@[simp] theorem setPc_fault (t : Nat) (s : State) : (setPc t s).fault = s.fault := rfl
@[simp] theorem setPc_inq (t : Nat) (s : State) : (setPc t s).inq = s.inq := rfl
@[simp] theorem setPc_outq (t : Nat) (s : State) : (setPc t s).outq = s.outq := rfl
@[simp] theorem setPc_inClosed (t : Nat) (s : State) : (setPc t s).inClosed = s.inClosed := rfl

@[simp] theorem setRb_mem (v : Int) (s : State) : (setRb v s).mem = s.mem := rfl
@[simp] theorem setRb_extent (v : Int) (s : State) : (setRb v s).extent = s.extent := rfl
@[simp] theorem setRb_pc (v : Int) (s : State) : (setRb v s).pc = s.pc := rfl
@[simp] theorem setRb_rb (v : Int) (s : State) : (setRb v s).rb = v := rfl
@[simp] theorem setRb_halted (v : Int) (s : State) : (setRb v s).halted = s.halted := rfl
@[simp] theorem setRb_fault (v : Int) (s : State) : (setRb v s).fault = s.fault := rfl
@[simp] theorem setRb_inq (v : Int) (s : State) : (setRb v s).inq = s.inq := rfl
@[simp] theorem setRb_outq (v : Int) (s : State) : (setRb v s).outq = s.outq := rfl
@[simp] theorem setRb_inClosed (v : Int) (s : State) : (setRb v s).inClosed = s.inClosed := rfl

@[simp] theorem setHalted_mem (s : State) : (setHalted s).mem = s.mem := rfl
@[simp] theorem setHalted_extent (s : State) : (setHalted s).extent = s.extent := rfl
@[simp] theorem setHalted_pc (s : State) : (setHalted s).pc = s.pc := rfl
@[simp] theorem setHalted_rb (s : State) : (setHalted s).rb = s.rb := rfl
@[simp] theorem setHalted_halted (s : State) : (setHalted s).halted = true := rfl
@[simp] theorem setHalted_fault (s : State) : (setHalted s).fault = s.fault := rfl
@[simp] theorem setHalted_inq (s : State) : (setHalted s).inq = s.inq := rfl
@[simp] theorem setHalted_outq (s : State) : (setHalted s).outq = s.outq := rfl
@[simp] theorem setHalted_inClosed (s : State) : (setHalted s).inClosed = s.inClosed := rfl

@[simp] theorem setInq_mem (q : List Int) (s : State) : (setInq q s).mem = s.mem := rfl
@[simp] theorem setInq_extent (q : List Int) (s : State) : (setInq q s).extent = s.extent := rfl
@[simp] theorem setInq_pc (q : List Int) (s : State) : (setInq q s).pc = s.pc := rfl
@[simp] theorem setInq_rb (q : List Int) (s : State) : (setInq q s).rb = s.rb := rfl
@[simp] theorem setInq_halted (q : List Int) (s : State) : (setInq q s).halted = s.halted := rfl
@[simp] theorem setInq_fault (q : List Int) (s : State) : (setInq q s).fault = s.fault := rfl
@[simp] theorem setInq_inq (q : List Int) (s : State) : (setInq q s).inq = q := rfl
@[simp] theorem setInq_outq (q : List Int) (s : State) : (setInq q s).outq = s.outq := rfl
@[simp] theorem setInq_inClosed (q : List Int) (s : State) : (setInq q s).inClosed = s.inClosed := rfl

@[simp] theorem setOutq_mem (q : List Int) (s : State) : (setOutq q s).mem = s.mem := rfl
@[simp] theorem setOutq_extent (q : List Int) (s : State) : (setOutq q s).extent = s.extent := rfl
@[simp] theorem setOutq_pc (q : List Int) (s : State) : (setOutq q s).pc = s.pc := rfl
@[simp] theorem setOutq_rb (q : List Int) (s : State) : (setOutq q s).rb = s.rb := rfl
@[simp] theorem setOutq_halted (q : List Int) (s : State) : (setOutq q s).halted = s.halted := rfl
@[simp] theorem setOutq_fault (q : List Int) (s : State) : (setOutq q s).fault = s.fault := rfl
@[simp] theorem setOutq_inq (q : List Int) (s : State) : (setOutq q s).inq = s.inq := rfl
@[simp] theorem setOutq_outq (q : List Int) (s : State) : (setOutq q s).outq = q := rfl
@[simp] theorem setOutq_inClosed (q : List Int) (s : State) : (setOutq q s).inClosed = s.inClosed := rfl

@[simp] theorem takeFault_mem (f : FaultKind) (s : State) : (takeFault f s).mem = s.mem := rfl
@[simp] theorem takeFault_extent (f : FaultKind) (s : State) : (takeFault f s).extent = s.extent := rfl
@[simp] theorem takeFault_pc (f : FaultKind) (s : State) : (takeFault f s).pc = s.pc := rfl
@[simp] theorem takeFault_rb (f : FaultKind) (s : State) : (takeFault f s).rb = s.rb := rfl
@[simp] theorem takeFault_halted (f : FaultKind) (s : State) : (takeFault f s).halted = s.halted := rfl
@[simp] theorem takeFault_fault (f : FaultKind) (s : State) : (takeFault f s).fault = some f := rfl
@[simp] theorem takeFault_inq (f : FaultKind) (s : State) : (takeFault f s).inq = s.inq := rfl
@[simp] theorem takeFault_outq (f : FaultKind) (s : State) : (takeFault f s).outq = s.outq := rfl
@[simp] theorem takeFault_inClosed (f : FaultKind) (s : State) : (takeFault f s).inClosed = s.inClosed := rfl

@[simp] theorem bind_ok {α β : Type} (v : α) (s : State) (f : α → State → Act β) : (Act.ok v s).bind f = f v s := rfl
@[simp] theorem bind_raise {α β : Type} (k : FaultKind) (s : State) (f : α → State → Act β) :
    (Act.raise k s).bind f = .raise k s := rfl
@[simp] theorem bind_stall {α β : Type} (s : State) (f : α → State → Act β) : (Act.stall s).bind f = .stall s := rfl
@[simp] theorem bind_refuse {α β : Type} (r : Refusal) (f : α → State → Act β) : (Act.refuse r).bind f = .refuse r := rfl

@[simp] theorem outcome_ok {α : Type} (v : α) (s : State) : (Act.ok v s).outcome = .next s := rfl
@[simp] theorem outcome_raise {α : Type} (f : FaultKind) (s : State) :
    (Act.raise f s : Act α).outcome = .next (takeFault f s) := rfl
@[simp] theorem outcome_stall {α : Type} (s : State) : (Act.stall s : Act α).outcome = .next s := rfl
@[simp] theorem outcome_refuse {α : Type} (r : Refusal) : (Act.refuse r : Act α).outcome = .refused r := rfl

/-- A bind that ends in `ok` went through an `ok` of its first part. -/
theorem bind_eq_ok {α β : Type} {x : Act α} {f : α → State → Act β} {v : β} {t : State} (h : x.bind f = .ok v t) :
    ∃ u s, x = .ok u s ∧ f u s = .ok v t := by
  cases x <;> simp_all

end Sys2Proof.Machine
end

