-- ==== Sys2Proof/Laws/Operands.lean ====
section
/-! SUPPORT. What each shared operation can do, said once: memory access, resolving a parameter, the overflow filter,
the update of the program counter. -/

namespace Sys2Proof.Machine

/-- With no MEM_LIMIT every non-negative address can be read. -/
theorem memRead_ok {p : Params} (hp : p.memLimit = none) {addr : Int} (h : 0 ≤ addr) (s : State) :
    memRead p addr s = .ok (Memory.read addr.toNat s.mem) (touch addr.toNat s) := by
  simp [memRead, inMemory, hp, not_lt.mpr h]

/-- With no MEM_LIMIT every non-negative address can be written. -/
theorem memWrite_ok {p : Params} (hp : p.memLimit = none) {addr : Int} (h : 0 ≤ addr) (v : Int) (s : State) :
    memWrite p addr v s = .ok () (setCell addr.toNat v (touch addr.toNat s)) := by
  simp [memWrite, inMemory, hp, not_lt.mpr h]

/-- The four ways a read of memory can end. -/
theorem memRead_cases (p : Params) (addr : Int) (s : State) :
    (0 ≤ addr ∧ memRead p addr s = .ok (Memory.read addr.toNat s.mem) (touch addr.toNat s)) ∨
    (addr < 0 ∧ memRead p addr s = .raise .addressFault s) ∨
    (0 ≤ addr ∧ p.memLimit ≠ none ∧ memRead p addr s = .refuse .memLimit) := by
  unfold memRead
  split_ifs with h1 h2
  · exact .inr (.inl ⟨h1, rfl⟩)
  · exact .inl ⟨not_lt.mp h1, rfl⟩
  · refine .inr (.inr ⟨not_lt.mp h1, fun hn => h2 ?_, rfl⟩)
    simp [inMemory, hn]

/-- With no MEM_LIMIT fetching a parameter's cell always succeeds, and resolving it follows. -/
theorem operand_eq_resolve {p : Params} (hp : p.memLimit = none) (k : Nat) (kind : Kind) (o : Operand) (s : State) :
    operand p k kind o s = resolve p kind o { s with extent := max s.extent (s.pc + k + 1) } := by
  rw [operand, memRead_ok hp (Int.natCast_nonneg _), bind_ok, Int.toNat_natCast]
  rfl

/-- A readable parameter resolves to its value; its reads grow the extent and change nothing else. -/
theorem operand_read_ok {p : Params} (hp : p.memLimit = none) (k : Nat) {o : Operand} {s : State}
    (h : readable s o = true) :
    operand p k .read o s = .ok (readValue s o) { s with extent := extentOver s.extent (readCells s k o) } := by
  rw [operand_eq_resolve hp]
  cases hm : o.mode <;> simp only [readable, hm, decide_eq_true_eq, Bool.false_eq_true] at h <;>
    simp only [resolve, hm, readValue, readCells, extentOver, List.foldl]
  all_goals rw [memRead_ok hp h]; rfl

/-- An addressable parameter resolves to its address; only its fetch grows the extent. -/
theorem operand_address_ok {p : Params} (hp : p.memLimit = none) (k : Nat) {o : Operand} {s : State}
    (h : addressable s o = true) :
    operand p k .address o s = .ok (operandAddress s.rb o) { s with extent := extentOver s.extent [s.pc + k] } := by
  rw [operand_eq_resolve hp]
  cases hm : o.mode <;> simp only [addressable, hm, decide_eq_true_eq, Bool.false_eq_true] at h <;>
    simp only [resolve, hm, if_neg (not_lt.mpr h), extentOver, List.foldl]

/-- The same in a state whose extent earlier parameters have grown. -/
theorem operand_read_at {p : Params} (hp : p.memLimit = none) (k e : Nat) {o : Operand} {s : State}
    (h : readable s o = true) :
    operand p k .read o { s with extent := e } =
      .ok (readValue s o) { s with extent := extentOver e (readCells s k o) } :=
  operand_read_ok (s := { s with extent := e }) hp k h

/-- The same in a state whose extent earlier parameters have grown. -/
theorem operand_address_at {p : Params} (hp : p.memLimit = none) (k e : Nat) {o : Operand} {s : State}
    (h : addressable s o = true) :
    operand p k .address o { s with extent := e } =
      .ok (operandAddress s.rb o) { s with extent := extentOver e [s.pc + k] } :=
  operand_address_ok (s := { s with extent := e }) hp k h

/-- A parameter with a fault raises it; only the extent has grown, by the fetch. -/
theorem operand_fault {p : Params} (hp : p.memLimit = none) (k : Nat) {kind : Kind} {o : Operand} {s : State} {f : FaultKind}
    (h : paramFault s.rb kind o = some f) :
    operand p k kind o s = .raise f { s with extent := extentOver s.extent [s.pc + k] } := by
  rw [operand_eq_resolve hp]
  cases hm : o.mode <;> cases kind <;> simp_all [paramFault, resolve, memRead, extentOver]

/-- A parameter of the read kind without a fault is readable. -/
theorem readable_of_no_fault {s : State} {o : Operand} (h : paramFault s.rb .read o = none) : readable s o = true := by
  cases hm : o.mode <;> simp_all [paramFault, readable]

/-- A parameter of the address kind without a fault is addressable. -/
theorem addressable_of_no_fault {s : State} {o : Operand} (h : paramFault s.rb .address o = none) :
    addressable s o = true := by
  cases hm : o.mode <;> simp_all [paramFault, addressable]

/-- An addressable parameter names a non-negative address. -/
theorem operandAddress_nonneg {s : State} {o : Operand} (h : addressable s o = true) : 0 ≤ operandAddress s.rb o := by
  cases hm : o.mode <;> simp_all [addressable]

/-- Everything fetching and resolving a parameter can do, under any parameter setting: its value and a grown extent, a
fault with nothing but the extent changed, or the refusal of a finite MEM_LIMIT. It never stalls. -/
theorem operand_cases (p : Params) (k : Nat) (kind : Kind) (o : Operand) (s : State) :
    (∃ v e, s.extent ≤ e ∧ s.pc + k < e ∧ operand p k kind o s = .ok v { s with extent := e } ∧
      match kind with
      | .read => readable s o = true ∧ v = readValue s o
      | .address => addressable s o = true ∧ v = operandAddress s.rb o) ∨
    (∃ f e, s.extent ≤ e ∧ paramFault s.rb kind o = some f ∧ operand p k kind o s = .raise f { s with extent := e }) ∨
    (p.memLimit ≠ none ∧ operand p k kind o s = .refuse .memLimit) := by
  unfold operand
  rcases memRead_cases p ((s.pc + k : Nat) : Int) s with ⟨_, h⟩ | ⟨hneg, _⟩ | ⟨_, hp, h⟩
  · rw [h, bind_ok]
    have touched : touch (s.pc + k) s = { s with extent := max s.extent (s.pc + k + 1) } := rfl
    cases hm : o.mode <;> cases kind <;>
      simp only [resolve, hm, paramFault, readable, addressable, readValue, Int.toNat_natCast, touched]
    case position.read | relative.read =>
      rcases memRead_cases p (operandAddress s.rb o) { s with extent := max s.extent (s.pc + k + 1) } with
        ⟨h0, h1⟩ | ⟨h0, h1⟩ | ⟨h0, hp, h1⟩
      · left
        exact ⟨_, _, le_trans (le_max_left _ _) (le_max_left _ _),
          lt_of_lt_of_le (Nat.lt_succ_self _) (le_trans (le_max_right _ _) (le_max_left _ _)), h1, by simpa using h0, rfl⟩
      · right; left
        exact ⟨_, _, le_max_left _ _, by simp [h0], h1⟩
      · right; right
        exact ⟨hp, h1⟩
    case position.address | relative.address =>
      by_cases h0 : operandAddress s.rb o < 0
      · right; left
        exact ⟨.addressFault, max s.extent (s.pc + k + 1), le_max_left _ _, by simp [h0], by simp only [if_pos h0]⟩
      · left
        exact ⟨_, _, le_max_left _ _, lt_of_lt_of_le (Nat.lt_succ_self _) (le_max_right _ _),
          by simp only [if_neg h0], by simpa using h0, rfl⟩
    case immediate.read =>
      exact .inl ⟨_, _, le_max_left _ _, lt_of_lt_of_le (Nat.lt_succ_self _) (le_max_right _ _), rfl, trivial, rfl⟩
    all_goals exact .inr (.inl ⟨_, _, le_max_left _ _, rfl, rfl⟩)
  · omega
  · exact .inr (.inr ⟨hp, by rw [h]; rfl⟩)

/-- Accesses one after the other grow the extent as one list of accesses does. -/
theorem extentOver_append (e : Nat) (xs ys : List Nat) : extentOver e (xs ++ ys) = extentOver (extentOver e xs) ys := by
  simp [extentOver, List.foldl_append]

/-- Accesses never shrink the extent. -/
theorem le_extentOver (e : Nat) (xs : List Nat) : e ≤ extentOver e xs := by
  induction xs generalizing e with
  | nil => exact Nat.le_refl e
  | cons x rest ih => exact le_trans (le_max_left e (x + 1)) (ih _)

/-- A result in range passes the overflow filter. -/
theorem overflowFilter_ok {p : Params} {r : Int} (h : inCell p r = true) (s : State) :
    overflowFilter p r s = .ok r s := by
  simp [overflowFilter, h]

/-- A result out of range raises OverflowFault under OVERFLOW_POLICY = fault. -/
theorem overflowFilter_raise {p : Params} (hp : p.overflowPolicy = .fault) {r : Int} (h : inCell p r = false) (s : State) :
    overflowFilter p r s = .raise .overflowFault s := by
  simp [overflowFilter, h, hp]

/-- A program counter in range is set. -/
theorem finish_ok {p : Params} {t : Nat} (h : pcFits p t = true) (before after : State) :
    finish p t before after = .ok () (setPc t after) := by
  simp [finish, h]

/-- A program counter out of range raises OverflowFault under OVERFLOW_POLICY = fault. -/
theorem finish_raise {p : Params} (hp : p.overflowPolicy = .fault) {t : Nat} (h : pcFits p t = false)
    (before after : State) : finish p t before after = .raise .overflowFault before := by
  simp [finish, h, hp]

/-- Everything the overflow filter can do. -/
theorem overflowFilter_cases (p : Params) (r : Int) (s : State) :
    (inCell p r = true ∧ overflowFilter p r s = .ok r s) ∨
    (inCell p r = false ∧ p.overflowPolicy = .fault ∧ overflowFilter p r s = .raise .overflowFault s) ∨
    (∃ w, inCell p r = false ∧ p.overflowPolicy = .wrap ∧ p.width = some w ∧
      overflowFilter p r s = .ok (wrapCell w r) s) := by
  unfold overflowFilter
  cases hr : inCell p r
  · cases hp : p.overflowPolicy
    · exact .inr (.inl ⟨rfl, rfl, by simp⟩)
    · cases hw : p.width with
      | none => simp [inCell, hw] at hr
      | some w => exact .inr (.inr ⟨w, rfl, rfl, rfl, by simp⟩)
  · exact .inl ⟨rfl, by simp⟩

/-- Everything the update of the program counter can do. -/
theorem finish_cases (p : Params) (t : Nat) (before after : State) :
    (pcFits p t = true ∧ finish p t before after = .ok () (setPc t after)) ∨
    (pcFits p t = false ∧ p.overflowPolicy = .fault ∧ finish p t before after = .raise .overflowFault before) ∨
    (pcFits p t = false ∧ p.overflowPolicy = .wrap ∧ finish p t before after = .refuse .pcBeyondMax) := by
  unfold finish
  cases pcFits p t <;> cases p.overflowPolicy <;> simp

end Sys2Proof.Machine
end

