-- ==== Sys2Proof/Laws/Exec.lean ====
section
/-! SUPPORT. What each instruction shape can do, said once: its effect with everything else unchanged, a fault with nothing
but the extent changed, a stall, or a refusal. -/

namespace Sys2Proof.Machine

/-- A meaning is its instruction under the setting the spec takes. -/
theorem exec_eq_runInstr (i : Instr) (s : State) : exec i s = (runInstr params i s).outcome := by
  cases i <;> rfl

/-- Everything an operation of the `rra` shape can do, for a computation that leaves the state alone. -/
theorem runStore_cases (p : Params) {compute : Int → Int → State → Act Int} (a b dst : Operand) (s : State)
    (hc : ∀ x y u, (∃ r, compute x y u = .ok r u) ∨ (∃ f, compute x y u = .raise f u)) :
    (∃ r e u, s.extent ≤ e ∧ (operandAddress s.rb dst).toNat < e ∧ addressable s dst = true ∧ pcFits p (s.pc + 4) = true ∧
      compute (readValue s a) (readValue s b) u = .ok r u ∧
      runStore p compute a b dst s = .ok ()
        { s with mem := Memory.write (operandAddress s.rb dst).toNat r s.mem, extent := e, pc := s.pc + 4 }) ∨
    (∃ f e, s.extent ≤ e ∧ runStore p compute a b dst s = .raise f { s with extent := e }) ∨
    (∃ r, (p.memLimit ≠ none ∨ p.overflowPolicy = .wrap) ∧ runStore p compute a b dst s = .refuse r) := by
  unfold runStore
  rcases operand_cases p 1 .read a s with ⟨x, e1, h1, _, hx, _, rfl⟩ | ⟨f, e1, h1, _, hx⟩ | ⟨hp, hx⟩ <;>
    simp only [hx, bind_ok, bind_raise, bind_refuse]
  · rcases operand_cases p 2 .read b { s with extent := e1 } with
      ⟨y, e2, h2, _, hy, _, rfl⟩ | ⟨f, e2, h2, _, hy⟩ | ⟨hp, hy⟩ <;> simp only [hy, bind_ok, bind_raise, bind_refuse]
    · rcases operand_cases p 3 .address dst { s with extent := e2 } with
        ⟨d, e3, h3, _, hd, hda, rfl⟩ | ⟨f, e3, h3, _, hd⟩ | ⟨hp, hd⟩ <;> simp only [hd, bind_ok, bind_raise, bind_refuse]
      · rcases hc (readValue s a) (readValue { s with extent := e1 } b) { s with extent := e3 } with ⟨r, hr⟩ | ⟨f, hr⟩ <;>
          simp only [hr, bind_ok, bind_raise]
        · unfold memWrite
          rw [if_neg (not_lt.mpr (operandAddress_nonneg hda))]
          split_ifs with hm
          · simp only [bind_ok]
            rcases finish_cases p (s.pc + 4) { s with extent := e3 }
                (setCell (operandAddress s.rb dst).toNat r (touch (operandAddress s.rb dst).toNat { s with extent := e3 })) with
              ⟨hf, hF⟩ | ⟨_, _, hF⟩ | ⟨_, hw, hF⟩
            · left
              exact ⟨r, max e3 ((operandAddress s.rb dst).toNat + 1), _, le_trans (le_trans h1 (le_trans h2 h3)) (le_max_left _ _),
                lt_of_lt_of_le (Nat.lt_succ_self _) (le_max_right _ _), hda, hf, hr, hF⟩
            · exact .inr (.inl ⟨_, e3, le_trans h1 (le_trans h2 h3), hF⟩)
            · exact .inr (.inr ⟨_, .inr hw, hF⟩)
          · refine .inr (.inr ⟨_, .inl fun hn => hm ?_, rfl⟩)
            simp [inMemory, hn]
        · exact .inr (.inl ⟨f, e3, le_trans h1 (le_trans h2 h3), rfl⟩)
      · exact .inr (.inl ⟨f, e3, le_trans h1 (le_trans h2 h3), rfl⟩)
      · exact .inr (.inr ⟨_, .inl hp, rfl⟩)
    · exact .inr (.inl ⟨f, e2, le_trans h1 h2, rfl⟩)
    · exact .inr (.inr ⟨_, .inl hp, rfl⟩)
  · exact .inr (.inl ⟨f, e1, h1, rfl⟩)
  · exact .inr (.inr ⟨_, .inl hp, rfl⟩)

/-- Everything IN can do. -/
theorem runInput_cases (p : Params) (dst : Operand) (s : State) :
    (∃ x rest e, s.inq = x :: rest ∧ s.extent ≤ e ∧ (operandAddress s.rb dst).toNat < e ∧ addressable s dst = true ∧
      pcFits p (s.pc + 2) = true ∧
      runInput p dst s = .ok ()
        { s with mem := Memory.write (operandAddress s.rb dst).toNat x s.mem, extent := e, inq := rest, pc := s.pc + 2 }) ∨
    (∃ f e, s.extent ≤ e ∧ runInput p dst s = .raise f { s with extent := e }) ∨
    (∃ e, s.extent ≤ e ∧ s.inq = [] ∧ s.inClosed = false ∧ addressable s dst = true ∧
      runInput p dst s = .stall { s with extent := e }) ∨
    (∃ r, (p.memLimit ≠ none ∨ p.overflowPolicy = .wrap) ∧ runInput p dst s = .refuse r) := by
  unfold runInput
  rcases operand_cases p 1 .address dst s with ⟨d, e1, h1, _, hd, hda, rfl⟩ | ⟨f, e1, h1, _, hd⟩ | ⟨hp, hd⟩ <;>
    simp only [hd, bind_ok, bind_raise, bind_refuse]
  · cases hq : s.inq with
    | nil =>
      cases hcl : s.inClosed
      · exact .inr (.inr (.inl ⟨e1, h1, rfl, rfl, hda, rfl⟩))
      · exact .inr (.inl ⟨_, e1, h1, rfl⟩)
    | cons x rest =>
      simp only
      unfold memWrite
      rw [if_neg (not_lt.mpr (operandAddress_nonneg hda))]
      split_ifs with hm
      · simp only [bind_ok]
        rcases finish_cases p (s.pc + 2) { s with extent := e1 }
            (setCell (operandAddress s.rb dst).toNat x
              (touch (operandAddress s.rb dst).toNat (setInq rest { s with extent := e1 }))) with
          ⟨hf, hF⟩ | ⟨_, _, hF⟩ | ⟨_, hw, hF⟩
        · left
          exact ⟨x, rest, max e1 ((operandAddress s.rb dst).toNat + 1), rfl, le_trans h1 (le_max_left _ _),
            lt_of_lt_of_le (Nat.lt_succ_self _) (le_max_right _ _), hda, hf, by simp only [hq] at hF; exact hF⟩
        · exact .inr (.inl ⟨_, e1, h1, by simpa only [hq] using hF⟩)
        · exact .inr (.inr (.inr ⟨_, .inr hw, by simpa only [hq] using hF⟩))
      · refine .inr (.inr (.inr ⟨_, .inl fun hn => hm ?_, rfl⟩))
        simp [inMemory, hn]
  · exact .inr (.inl ⟨f, e1, h1, rfl⟩)
  · exact .inr (.inr (.inr ⟨_, .inl hp, rfl⟩))

/-- Everything OUT can do. -/
theorem runOutput_cases (p : Params) (a : Operand) (s : State) :
    (∃ e, s.extent ≤ e ∧ readable s a = true ∧ queueFull p.outDepth s.outq = false ∧ pcFits p (s.pc + 2) = true ∧
      runOutput p a s = .ok () { s with extent := e, outq := s.outq ++ [readValue s a], pc := s.pc + 2 }) ∨
    (∃ f e, s.extent ≤ e ∧ runOutput p a s = .raise f { s with extent := e }) ∨
    (∃ e, s.extent ≤ e ∧ queueFull p.outDepth s.outq = true ∧ runOutput p a s = .stall { s with extent := e }) ∨
    (∃ r, (p.memLimit ≠ none ∨ p.overflowPolicy = .wrap) ∧ runOutput p a s = .refuse r) := by
  unfold runOutput
  rcases operand_cases p 1 .read a s with ⟨x, e1, h1, _, hx, hxr, rfl⟩ | ⟨f, e1, h1, _, hx⟩ | ⟨hp, hx⟩ <;>
    simp only [hx, bind_ok, bind_raise, bind_refuse]
  · split_ifs with hfull
    · exact .inr (.inr (.inl ⟨e1, h1, hfull, rfl⟩))
    · rcases finish_cases p (s.pc + 2) { s with extent := e1 }
          (setOutq (s.outq ++ [readValue s a]) { s with extent := e1 }) with ⟨hf, hF⟩ | ⟨_, _, hF⟩ | ⟨_, hw, hF⟩
      · exact .inl ⟨e1, h1, hxr, by simpa using hfull, hf, hF⟩
      · exact .inr (.inl ⟨_, e1, h1, hF⟩)
      · exact .inr (.inr (.inr ⟨_, .inr hw, hF⟩))
  · exact .inr (.inl ⟨f, e1, h1, rfl⟩)
  · exact .inr (.inr (.inr ⟨_, .inl hp, rfl⟩))

/-- What the second parameter of a jump is resolved to, under either JUMP_TARGET_KIND. -/
def jumpTarget (p : Params) (s : State) (target : Operand) : Int :=
  match p.jumpTargetKind with
  | .address => operandAddress s.rb target
  | .value => readValue s target

/-- Everything a jump can do: it sets the program counter, or faults, or is refused. -/
theorem runJump_cases (p : Params) (taken : Int → Bool) (a target : Operand) (s : State) :
    (∃ t e, s.extent ≤ e ∧ pcFits p t = true ∧ readable s a = true ∧
      (if taken (readValue s a) then 0 ≤ jumpTarget p s target ∧ t = (jumpTarget p s target).toNat else t = s.pc + 3) ∧
      runJump p taken a target s = .ok () { s with extent := e, pc := t }) ∨
    (∃ f e, s.extent ≤ e ∧ runJump p taken a target s = .raise f { s with extent := e }) ∨
    (∃ r, (p.memLimit ≠ none ∨ p.overflowPolicy = .wrap) ∧ runJump p taken a target s = .refuse r) := by
  unfold runJump
  rcases operand_cases p 1 .read a s with ⟨x, e1, h1, _, hx, hxr, rfl⟩ | ⟨f, e1, h1, _, hx⟩ | ⟨hp, hx⟩ <;>
    simp only [hx, bind_ok, bind_raise, bind_refuse]
  · rcases operand_cases p 2 (targetKind p) target { s with extent := e1 } with
      ⟨v, e2, h2, _, hv, hk⟩ | ⟨f, e2, h2, _, hv⟩ | ⟨hp, hv⟩ <;> simp only [hv, bind_ok, bind_raise, bind_refuse]
    · have hj : v = jumpTarget p s target := by
        cases hkind : p.jumpTargetKind <;> simp only [targetKind, hkind, jumpTarget] at hk ⊢ <;> exact hk.2
      split_ifs with ht hneg
      · exact .inr (.inl ⟨_, e2, le_trans h1 h2, rfl⟩)
      · rcases finish_cases p v.toNat { s with extent := e2 } { s with extent := e2 } with
          ⟨hf, hF⟩ | ⟨_, _, hF⟩ | ⟨_, hw, hF⟩
        · exact .inl ⟨_, e2, le_trans h1 h2, hf, hxr, by simpa [ht, ← hj] using hneg, hF⟩
        · exact .inr (.inl ⟨_, e2, le_trans h1 h2, hF⟩)
        · exact .inr (.inr ⟨_, .inr hw, hF⟩)
      · rcases finish_cases p (s.pc + 3) { s with extent := e2 } { s with extent := e2 } with
          ⟨hf, hF⟩ | ⟨_, _, hF⟩ | ⟨_, hw, hF⟩
        · exact .inl ⟨_, e2, le_trans h1 h2, hf, hxr, by simp, hF⟩
        · exact .inr (.inl ⟨_, e2, le_trans h1 h2, hF⟩)
        · exact .inr (.inr ⟨_, .inr hw, hF⟩)
    · exact .inr (.inl ⟨f, e2, le_trans h1 h2, rfl⟩)
    · exact .inr (.inr ⟨_, .inl hp, rfl⟩)
  · exact .inr (.inl ⟨f, e1, h1, rfl⟩)
  · exact .inr (.inr ⟨_, .inl hp, rfl⟩)

/-- Everything ARB can do. -/
theorem runArb_cases (p : Params) (a : Operand) (s : State) :
    (∃ r e u, s.extent ≤ e ∧ pcFits p (s.pc + 2) = true ∧ overflowFilter p (s.rb + readValue s a) u = .ok r u ∧
      runArb p a s = .ok () { s with extent := e, rb := r, pc := s.pc + 2 }) ∨
    (∃ f e, s.extent ≤ e ∧ runArb p a s = .raise f { s with extent := e }) ∨
    (∃ r, (p.memLimit ≠ none ∨ p.overflowPolicy = .wrap) ∧ runArb p a s = .refuse r) := by
  unfold runArb
  rcases operand_cases p 1 .read a s with ⟨x, e1, h1, _, hx, hxr, rfl⟩ | ⟨f, e1, h1, _, hx⟩ | ⟨hp, hx⟩ <;>
    simp only [hx, bind_ok, bind_raise, bind_refuse]
  · have hcases : (∃ r, overflowFilter p (s.rb + readValue s a) { s with extent := e1 } = .ok r { s with extent := e1 }) ∨
        overflowFilter p (s.rb + readValue s a) { s with extent := e1 } = .raise .overflowFault { s with extent := e1 } := by
      rcases overflowFilter_cases p (s.rb + readValue s a) { s with extent := e1 } with ⟨_, h⟩ | ⟨_, _, h⟩ | ⟨w, _, _, _, h⟩
      · exact .inl ⟨_, h⟩
      · exact .inr h
      · exact .inl ⟨_, h⟩
    rcases hcases with ⟨r, hr⟩ | hr <;> simp only [hr, bind_ok, bind_raise]
    · rcases finish_cases p (s.pc + 2) { s with extent := e1 } (setRb r { s with extent := e1 }) with
        ⟨hf, hF⟩ | ⟨_, _, hF⟩ | ⟨_, hw, hF⟩
      · exact .inl ⟨r, e1, _, h1, hf, hr, hF⟩
      · exact .inr (.inl ⟨_, e1, h1, hF⟩)
      · exact .inr (.inr ⟨_, .inr hw, hF⟩)
    · exact .inr (.inl ⟨_, e1, h1, rfl⟩)
  · exact .inr (.inl ⟨f, e1, h1, rfl⟩)
  · exact .inr (.inr ⟨_, .inl hp, rfl⟩)

/-- The computations of ADD, MUL, LT and EQ leave the state alone. -/
theorem overflowFilter_pure (p : Params) (f : Int → Int → Int) (x y : Int) (u : State) :
    (∃ r, overflowFilter p (f x y) u = .ok r u) ∨ (∃ k, overflowFilter p (f x y) u = .raise k u) := by
  rcases overflowFilter_cases p (f x y) u with ⟨_, h⟩ | ⟨_, _, h⟩ | ⟨w, _, _, _, h⟩
  · exact .inl ⟨_, h⟩
  · exact .inr ⟨_, h⟩
  · exact .inl ⟨_, h⟩

/-- The ways any instruction can end: done, a fault with nothing but the extent changed, the stall of IN or OUT with
nothing but the extent changed, or a refusal that only a non-default parameter can cause. -/
theorem runInstr_cases (p : Params) (i : Instr) (s : State) :
    (∃ t, runInstr p i s = .ok () t) ∨
    (∃ f e, s.extent ≤ e ∧ runInstr p i s = .raise f { s with extent := e }) ∨
    (∃ e, s.extent ≤ e ∧ runInstr p i s = .stall { s with extent := e } ∧
      ((∃ dst, i = .input dst ∧ s.inq = [] ∧ s.inClosed = false ∧ addressable s dst = true) ∨
        (∃ a, i = .output a ∧ queueFull p.outDepth s.outq = true))) ∨
    (∃ r, (p.memLimit ≠ none ∨ p.overflowPolicy = .wrap) ∧ runInstr p i s = .refuse r) := by
  cases i with
  | add a b dst =>
    rcases runStore_cases p a b dst s (overflowFilter_pure p (fun x y => x + y)) with
      ⟨_, _, _, _, _, _, _, _, h⟩ | h | h
    exacts [.inl ⟨_, h⟩, .inr (.inl h), .inr (.inr (.inr h))]
  | mul a b dst =>
    rcases runStore_cases p a b dst s (overflowFilter_pure p (fun x y => x * y)) with
      ⟨_, _, _, _, _, _, _, _, h⟩ | h | h
    exacts [.inl ⟨_, h⟩, .inr (.inl h), .inr (.inr (.inr h))]
  | lt a b dst =>
    rcases runStore_cases p (compute := fun x y u => .ok (lessThan x y) u) a b dst s (fun _ _ _ => .inl ⟨_, rfl⟩) with
      ⟨_, _, _, _, _, _, _, _, h⟩ | h | h
    exacts [.inl ⟨_, h⟩, .inr (.inl h), .inr (.inr (.inr h))]
  | eq a b dst =>
    rcases runStore_cases p (compute := fun x y u => .ok (equals x y) u) a b dst s (fun _ _ _ => .inl ⟨_, rfl⟩) with
      ⟨_, _, _, _, _, _, _, _, h⟩ | h | h
    exacts [.inl ⟨_, h⟩, .inr (.inl h), .inr (.inr (.inr h))]
  | input dst =>
    rcases runInput_cases p dst s with ⟨_, _, _, _, _, _, _, _, h⟩ | h | ⟨e, he, hq, hc, hd, h⟩ | h
    exacts [.inl ⟨_, h⟩, .inr (.inl h), .inr (.inr (.inl ⟨e, he, h, .inl ⟨dst, rfl, hq, hc, hd⟩⟩)), .inr (.inr (.inr h))]
  | output a =>
    rcases runOutput_cases p a s with ⟨_, _, _, _, _, h⟩ | h | ⟨e, he, hf, h⟩ | h
    exacts [.inl ⟨_, h⟩, .inr (.inl h), .inr (.inr (.inl ⟨e, he, h, .inr ⟨a, rfl, hf⟩⟩)), .inr (.inr (.inr h))]
  | jnz a target =>
    rcases runJump_cases p (fun x => decide (x ≠ 0)) a target s with ⟨_, _, _, _, _, _, h⟩ | h | h
    exacts [.inl ⟨_, h⟩, .inr (.inl h), .inr (.inr (.inr h))]
  | jz a target =>
    rcases runJump_cases p (fun x => decide (x = 0)) a target s with ⟨_, _, _, _, _, _, h⟩ | h | h
    exacts [.inl ⟨_, h⟩, .inr (.inl h), .inr (.inr (.inr h))]
  | arb a =>
    rcases runArb_cases p a s with ⟨_, _, _, _, _, _, h⟩ | h | h
    exacts [.inl ⟨_, h⟩, .inr (.inl h), .inr (.inr (.inr h))]
  | hlt => exact .inl ⟨_, rfl⟩

/-- Everything fetching and decoding can do: an instruction with the opcode word's cell accessed, InvalidOpcodeFault, or
the refusal of a finite MEM_LIMIT. -/
theorem fetchDecode_cases (p : Params) (s : State) :
    (∃ i rest, decode p.strictDecode (Memory.read s.pc s.mem :: operandCells s) = .ok (i, rest) ∧
      fetchDecode p s = .ok i { s with extent := max s.extent (s.pc + 1) }) ∨
    (∃ r, decode p.strictDecode (Memory.read s.pc s.mem :: operandCells s) = .error r ∧
      fetchDecode p s = .raise .invalidOpcodeFault { s with extent := max s.extent (s.pc + 1) }) ∨
    (p.memLimit ≠ none ∧ fetchDecode p s = .refuse .memLimit) := by
  unfold fetchDecode
  rcases memRead_cases p (s.pc : Int) s with ⟨_, h⟩ | ⟨hneg, _⟩ | ⟨_, hp, h⟩
  · rw [h, bind_ok, Int.toNat_natCast]
    cases hd : decode p.strictDecode (Memory.read s.pc s.mem :: operandCells s) with
    | ok x => exact .inl ⟨x.1, x.2, rfl, rfl⟩
    | error r => exact .inr (.inl ⟨r, rfl, rfl⟩)
  · omega
  · exact .inr (.inr ⟨hp, by rw [h]; rfl⟩)

/-- The report of a step of a Running instance whose instruction decodes. -/
theorem stepReport_of_fetch {p : Params} {s s1 : State} {i : Instr} (hr : running s = true)
    (h : fetchDecode p s = .ok i s1) : stepReport p s = (runInstr p i s1).report := by
  rw [stepReport, if_pos hr, h, bind_ok]

/-- Everything a step can do: idle; the report of the instruction at `pc`, decoded and with its opcode word accessed; a
fault of the decoder; or the refusal of a finite MEM_LIMIT. -/
theorem stepReport_cases (p : Params) (s : State) :
    (running s = false ∧ stepReport p s = .stepped .idle s) ∨
    (running s = true ∧ ∃ i rest, decode p.strictDecode (Memory.read s.pc s.mem :: operandCells s) = .ok (i, rest) ∧
      stepReport p s = (runInstr p i { s with extent := max s.extent (s.pc + 1) }).report) ∨
    (running s = true ∧ stepReport p s = .stepped (.faulted .invalidOpcodeFault)
      { s with fault := some .invalidOpcodeFault, extent := max s.extent (s.pc + 1) }) ∨
    (running s = true ∧ p.memLimit ≠ none ∧ stepReport p s = .refused .memLimit) := by
  cases hr : running s
  · exact .inl ⟨rfl, by simp [stepReport, hr]⟩
  · rcases fetchDecode_cases p s with ⟨i, rest, hd, hf⟩ | ⟨r, hd, hf⟩ | ⟨hp, hf⟩
    · exact .inr (.inl ⟨rfl, i, rest, hd, stepReport_of_fetch hr hf⟩)
    · exact .inr (.inr (.inl ⟨rfl, by rw [stepReport, if_pos hr, hf]; rfl⟩))
    · exact .inr (.inr (.inr ⟨rfl, hp, by rw [stepReport, if_pos hr, hf]; rfl⟩))

end Sys2Proof.Machine
end

