-- ==== Sys2Proof/Laws/Params.lean ====
section
/-! SUPPORT. The range checks under the setting the spec takes, as plain inequalities (R5, R15). -/

namespace Sys2Proof.Machine

@[simp] theorem params_overflowPolicy : params.overflowPolicy = .fault := rfl
@[simp] theorem params_memLimit : params.memLimit = none := rfl
@[simp] theorem params_inDepth : params.inDepth = none := rfl
@[simp] theorem params_outDepth : params.outDepth = none := rfl
@[simp] theorem params_strictDecode : params.strictDecode = false := rfl
@[simp] theorem params_jumpTargetKind : params.jumpTargetKind = .address := rfl
@[simp] theorem queueFull_none (q : List Int) : queueFull none q = false := rfl
@[simp] theorem queueFits_none (q : List Int) : queueFits none q = true := rfl

/-- The cell range for W = 64 (R69). -/
theorem inCell_params (v : Int) :
    inCell params v = true ↔ -9223372036854775808 ≤ v ∧ v ≤ 9223372036854775807 := by
  simp only [inCell, params, Bool.and_eq_true, decide_eq_true_eq]
  simp [minCell, maxCell]

/-- The range of the program counter for W = 64 (R15). -/
theorem pcFits_params (t : Nat) : pcFits params t = true ↔ t ≤ 9223372036854775807 := by
  simp only [pcFits, params, decide_eq_true_eq]
  norm_num
  omega

/-- 0 is a cell value under every width. -/
theorem inCell_zero (p : Params) : inCell p 0 = true := by
  cases hw : p.width with
  | none => simp [inCell, hw]
  | some w =>
    have : 0 < 2 ^ (w - 1) := Nat.pow_pos (by decide)
    simp only [inCell, hw, Bool.and_eq_true, decide_eq_true_eq]
    simp only [minCell, maxCell]
    omega

end Sys2Proof.Machine
end

