-- ==== Sys2Proof/Laws/PerInstr.lean ====
section
/-! SUPPORT. A statement about every instruction as syntax, one lemma per constructor: its canonical opcode word ends in
the digits of its selector, the selector gives its parameter count, and its encoding is as long as it says
(30_encoding.md R49, R50, R53, R54). -/

namespace Sys2Proof.Laws.CanonicalWord

/-- The opcode word's two low digits are the selector, the parameter count is the selector's, and the encoding has
`1 + n` cells. -/
def Statement (i : Instr) : Prop :=
  i.opcodeWord % 100 = i.selector ∧ paramCount (i.opcodeWord % 100) = some i.operands.length ∧
    (encode i).length = i.length

/-- It holds of an instruction whose selector is below 100. -/
theorem of_selector_lt {i : Instr} (h : i.selector < 100) : Statement i := by
  have hw : i.opcodeWord % 100 = i.selector := by
    rw [Instr.opcodeWord, Nat.add_mul_mod_self_left, Nat.mod_eq_of_lt h]
  exact ⟨hw, by rw [hw, paramCount_selector], encode_length i⟩

theorem add (a b dst : Operand) : Statement (.add a b dst) := of_selector_lt (show 1 < 100 by decide)

theorem mul (a b dst : Operand) : Statement (.mul a b dst) := of_selector_lt (show 2 < 100 by decide)

theorem input (dst : Operand) : Statement (.input dst) := of_selector_lt (show 3 < 100 by decide)

theorem output (a : Operand) : Statement (.output a) := of_selector_lt (show 4 < 100 by decide)

theorem jnz (a target : Operand) : Statement (.jnz a target) := of_selector_lt (show 5 < 100 by decide)

theorem jz (a target : Operand) : Statement (.jz a target) := of_selector_lt (show 6 < 100 by decide)

theorem lt (a b dst : Operand) : Statement (.lt a b dst) := of_selector_lt (show 7 < 100 by decide)

theorem eq (a b dst : Operand) : Statement (.eq a b dst) := of_selector_lt (show 8 < 100 by decide)

theorem arb (a : Operand) : Statement (.arb a) := of_selector_lt (show 9 < 100 by decide)

theorem hlt : Statement (.hlt) := of_selector_lt (show 99 < 100 by decide)

end Sys2Proof.Laws.CanonicalWord
end

