-- ==== Sys2Proof/Machine/Ring.lean ====
section
/-! DEFINITION. The ring topology (60_exceptions.md R122 to R124) under its schedule (b), cooperative round-robin stepping;
schedule (a) is any interleaving of `Network.stepAt` and `Network.transferOver`. When a ring stops and what its result is
follow 90_conflicts.md C12; the bounds on steps and turns are the model's (log entry 26). -/

namespace Sys2Proof.Machine

/-- How the turn of one instance ends. -/
inductive TurnEnd where
  /-- It blocks, on IN (or on OUT with a finite OUT_DEPTH, R119). -/
  | blocked (s : State)
  /-- It is Halted or Faulted. -/
  | stopped (s : State)
  /-- The bound on the steps of a turn is reached. -/
  | unfinished (s : State)
  /-- A step was refused (R7, R16). -/
  | refused (r : Refusal)
deriving DecidableEq, Repr

/-- Advance one instance "only until it next blocks on Input or halts" (R122), within `n` steps. -/
def advance (p : Params) : Nat → State → TurnEnd
  | 0, s => .unfinished s
  | n + 1, s =>
    match stepReport p s with
    | .refused r => .refused r
    | .stepped .idle t => .stopped t
    | .stepped (.faulted _) t => .stopped t
    | .stepped .stalled t => .blocked t
    | .stepped .done t => if t.halted then .stopped t else advance p n t

/-- When a ring stops without a fault (R122). -/
inductive RingRule where
  /-- When its final instance halts: the resolution of 90_conflicts.md C12, which gives the worked number of the source. -/
  | finalHalts
  /-- When any instance halts: the sentence R122 quotes, read literally; C12 sets it aside. -/
  | anyHalts
deriving DecidableEq, Repr

/-- A ring in progress: its instances, and the last value the final instance has produced. -/
structure Ring where
  instances : List State
  lastOutput : Option Int
deriving DecidableEq, Repr

/-- The fault of the first instance that has one (R123). -/
def ringFault (instances : List State) : Option FaultKind := instances.findSome? (fun s => s.fault)

/-- Whether a ring stops: by its rule, and by a fault of any instance, which is treated as a halt (R122, R123). -/
def ringStopped (rule : RingRule) (instances : List State) : Bool :=
  (ringFault instances).isSome ||
  match rule with
  | .finalHalts => instances.getLast?.any (fun s => s.halted)
  | .anyHalts => instances.any (fun s => s.halted)

/-- The last value in an output queue, or the one before it was filled. -/
def lastProduced (before : Option Int) (outq : List Int) : Option Int :=
  match outq.getLast? with
  | none => before
  | some v => some v

/-- The ring after instance `k` has ended its turn as `t`: what it has produced is moved to the next instance, and
recorded if `k` is the final one (R103, R122). -/
def Ring.afterTurn (p : Params) (k : Nat) (t : State) (ring : Ring) : Ring :=
  { instances := (Network.drainOver p k ((k + 1) % ring.instances.length) t.outq.length
      { instances := ring.instances.set k t, links := ringLinks ring.instances.length }).instances
    lastOutput := if k + 1 = ring.instances.length then lastProduced ring.lastOutput t.outq else ring.lastOutput }

/-- How a ring's run stands. -/
inductive RingResult where
  /-- It has stopped by its rule; `lastOutput` is the network's result (R122), none if the final instance produced no
  value. -/
  | ended (ring : Ring)
  /-- It has stopped by a fault, which is surfaced (R123). -/
  | faulted (f : FaultKind) (ring : Ring)
  /-- `OrchestrationDeadlock` (R124). -/
  | deadlocked (ring : Ring)
  /-- The bound on turns, or on the steps of a turn, is reached. -/
  | unfinished (ring : Ring)
  /-- A step was refused (R7, R16). -/
  | refused (r : Refusal)
deriving DecidableEq, Repr

/-- One turn of instance `k`, of at most `n` steps: the ring after it, or why there is none. -/
def Ring.turn (p : Params) (n k : Nat) (ring : Ring) : Except RingResult Ring :=
  match ring.instances[k]? with
  | none => .error (.unfinished ring)
  | some s =>
    match advance p n s with
    | .refused r => .error (.refused r)
    | .unfinished t => .error (.unfinished { ring with instances := ring.instances.set k t })
    | .blocked t => .ok (ring.afterTurn p k t)
    | .stopped t => .ok (ring.afterTurn p k t)

/-- Whether a ring is at an end between two turns, and which: a fault, its rule, or a deadlock (R122 to R124). -/
def Ring.ending (p : Params) (rule : RingRule) (ring : Ring) : Option RingResult :=
  match ringFault ring.instances with
  | some f => some (.faulted f ring)
  | none =>
    if ringStopped rule ring.instances then some (.ended ring)
    else if ringDeadlocked p ring.instances then some (.deadlocked ring)
    else none

/-- Run a ring for at most `turns` turns of at most `n` steps each, the first of them instance `k`'s. -/
def runRing (p : Params) (rule : RingRule) (n : Nat) : Nat → Nat → Ring → RingResult
  | 0, _, ring => .unfinished ring
  | turns + 1, k, ring =>
    match ring.turn p n k with
    | .error r => r
    | .ok after =>
      match after.ending p rule with
      | some r => r
      | none => runRing p rule n turns ((k + 1) % after.instances.length) after

end Sys2Proof.Machine
end

