-- ==== Sys2Proof/Laws/Ring.lean ====
section
/-! SUPPORT. What moves over links and the turns of a ring keep: the number of instances. -/

namespace Sys2Proof.Machine

/-- A transfer keeps the number of instances and the links. -/
theorem transferOver_keeps {p : Params} {i j : Nat} {net after : Network} (h : net.transferOver p i j = some after) :
    after.instances.length = net.instances.length ∧ after.links = net.links := by
  unfold Network.transferOver at h
  repeat' split at h
  all_goals cases h
  simp

/-- So do transfers one after the other. -/
theorem drainOver_keeps (p : Params) (i j n : Nat) (net : Network) :
    (net.drainOver p i j n).instances.length = net.instances.length ∧ (net.drainOver p i j n).links = net.links := by
  induction n generalizing net with
  | zero => exact ⟨rfl, rfl⟩
  | succ n ih =>
    unfold Network.drainOver
    split
    · exact ⟨rfl, rfl⟩
    · rename_i after h
      exact ⟨(ih after).1.trans (transferOver_keeps h).1, (ih after).2.trans (transferOver_keeps h).2⟩

/-- A turn of a ring keeps the number of instances. -/
theorem afterTurn_length (p : Params) (k : Nat) (t : State) (ring : Ring) :
    (ring.afterTurn p k t).instances.length = ring.instances.length := by
  simp [Ring.afterTurn, drainOver_keeps]

end Sys2Proof.Machine
end

