-- ==== Sys2Proof/Machine/AsmText.lean ====
section
/-! DEFINITION. Reading the assembly notation of 30_encoding.md R67 from text. A line is its list of characters. It has no
part in any step. -/

namespace Sys2Proof.Machine

/-- The value of a decimal digit. -/
def digitValue (c : Char) : Option Nat := if '0' ≤ c ∧ c ≤ '9' then some (c.toNat - 48) else none

/-- The decimal number whose leading digits have the value `n`. -/
def readDigits : Nat → List Char → Option Nat
  | n, [] => some n
  | n, c :: rest =>
    match digitValue c with
    | none => none
    | some d => readDigits (10 * n + d) rest

/-- A decimal natural number, at least one digit. -/
def readNat : List Char → Option Nat
  | [] => none
  | c :: rest => readDigits 0 (c :: rest)

/-- A decimal integer, possibly negative. -/
def readInt : List Char → Option Int
  | '-' :: rest => (readNat rest).map (fun n => -(n : Int))
  | text => (readNat text).map (fun n => (n : Int))

/-- What stands before a closing bracket that ends the text. -/
def beforeBracket : List Char → Option (List Char)
  | [] => none
  | [c] => if c = ']' then some [] else none
  | c :: rest => (beforeBracket rest).map (fun inner => c :: inner)

/-- The operand forms `#v`, `[v]`, `[rb+v]` and `[rb-u]`. -/
def readOperand : List Char → Option Operand
  | '#' :: text => (readInt text).map (fun v => ⟨.immediate, v⟩)
  | '[' :: 'r' :: 'b' :: '+' :: text =>
    ((beforeBracket text).bind readInt).map (fun v => ⟨.relative, v⟩)
  | '[' :: 'r' :: 'b' :: '-' :: text =>
    ((beforeBracket text).bind readNat).map (fun u => ⟨.relative, -(u : Int)⟩)
  | '[' :: text => ((beforeBracket text).bind readInt).map (fun v => ⟨.position, v⟩)
  | _ => none

/-- The pieces of a text between occurrences of a character. -/
def splitAtChar (sep : Char) : List Char → List (List Char)
  | [] => [[]]
  | c :: rest =>
    if c = sep then [] :: splitAtChar sep rest
    else match splitAtChar sep rest with
      | [] => [[c]]
      | piece :: pieces => (c :: piece) :: pieces

/-- All of the list, read one by one; `none` if one cannot be. -/
def readAll {α : Type} (read : List Char → Option α) : List (List Char) → Option (List α)
  | [] => some []
  | t :: rest =>
    match read t, readAll read rest with
    | some x, some xs => some (x :: xs)
    | _, _ => none

/-- The instruction of a mnemonic and its operands, by the table of R53. -/
def instrOfMnemonic (word : List Char) (operands : List Operand) : Option Instr :=
  match operands with
  | [] => if word = ['H', 'L', 'T'] then some .hlt else none
  | [a] =>
    if word = ['I', 'N'] then some (.input a)
    else if word = ['O', 'U', 'T'] then some (.output a)
    else if word = ['A', 'R', 'B'] then some (.arb a)
    else none
  | [a, b] =>
    if word = ['J', 'N', 'Z'] then some (.jnz a b)
    else if word = ['J', 'Z'] then some (.jz a b)
    else none
  | [a, b, dst] =>
    if word = ['A', 'D', 'D'] then some (.add a b dst)
    else if word = ['M', 'U', 'L'] then some (.mul a b dst)
    else if word = ['L', 'T'] then some (.lt a b dst)
    else if word = ['E', 'Q'] then some (.eq a b dst)
    else none
  | _ => none

/-- The code part of a line: nothing, an instruction, or `DATA v, v, ...`. Spaces within it have no meaning beyond ending
the mnemonic (log entry 22). -/
def readCode (text : List Char) : Option (Option AsmLine) :=
  let body := text.dropWhile (fun c => c == ' ')
  let word := body.takeWhile Char.isUpper
  let args := (body.dropWhile Char.isUpper).filter (fun c => c != ' ')
  if word = [] then (if args = [] then some none else none)
  else if word = ['D', 'A', 'T', 'A'] then (readAll readInt (splitAtChar ',' args)).map (fun vs => some (.data vs))
  else if args = [] then (instrOfMnemonic word []).map (fun i => some (.instr i))
  else ((readAll readOperand (splitAtChar ',' args)).bind (instrOfMnemonic word)).map (fun i => some (.instr i))

/-- A line: an optional `addr:`, the code, an optional comment after `;`. -/
def readLine (text : List Char) : Option (Option Nat × Option AsmLine) :=
  match splitAtChar ':' (text.takeWhile (fun c => c != ';')) with
  | [code] => (readCode code).map (fun l => (none, l))
  | [addr, code] =>
    match readNat (addr.filter (fun c => c != ' ')), readCode code with
    | some a, some l => some (some a, l)
    | _, _ => none
  | _ => none

/-- The cells of a program text whose first cell has address `a`. A line that cannot be read, an `addr:` that is not the
cell address of its line, and an operand form not accepted in its place have none. -/
def assembleText (p : Params) (a : Nat) : List (List Char) → Option (List Int)
  | [] => some []
  | text :: rest =>
    match readLine text with
    | none => none
    | some (addr, line) =>
      if addr = none ∨ addr = some a then
        match line with
        | none => assembleText p a rest
        | some l =>
          match assembleLine p l with
          | none => none
          | some cells => (assembleText p (a + cells.length) rest).map (fun after => cells ++ after)
      else none

end Sys2Proof.Machine
end

