-- ==== Sys2Proof/Tests/Slice0.lean ====
section
/-! SUPPORT. Tests: decoding of words written out from the spec, ill-formed terms, one step of each instruction with the
results of 95_test_vectors.md, and for each obligation a state and operands that meet its hypotheses. -/

namespace Sys2Proof.Tests

open Sys2Proof Sys2Proof.Machine

/-- The instance after `reset(P, 0)` with the values pushed. -/
def vm (program inputs : List Int) : State :=
  { State.reset with mem := Memory.ofCells 0 program, extent := program.length, inq := inputs }

/-- The next state shows the tape, program counter, relative base and fault. -/
def shows (s : Option State) (tape : List Int) (pc : Nat) (rb : Int) (fault : Option FaultKind) : Bool :=
  match s with
  | none => false
  | some t => decide ((dump t).tape = tape) && decide (t.pc = pc) && decide (t.rb = rb) && decide (t.fault = fault)

def pos (v : Int) : Operand := ⟨.position, v⟩
def imm (v : Int) : Operand := ⟨.immediate, v⟩
def rel (v : Int) : Operand := ⟨.relative, v⟩

/-! ### Well-formedness: an ill-formed term for each check -/

theorem test_wf_extremes : (Instr.add ⟨.reserved 3, -9223372036854775808⟩ ⟨.reserved 9, 9223372036854775807⟩ (rel 0)).wellFormed
    params = true := by decide
theorem test_wf_mode_digit_10 : (Instr.output ⟨.reserved 10, 0⟩).wellFormed params = false := by decide
theorem test_wf_mode_digit_2 : (Instr.jnz (imm 1) ⟨.reserved 2, 0⟩).wellFormed params = false := by decide
theorem test_wf_raw_above : (Instr.arb (imm 9223372036854775808)).wellFormed params = false := by decide
theorem test_wf_raw_below : (Instr.input (pos (-9223372036854775809))).wellFormed params = false := by decide
theorem test_legal_immediate_dst : (Instr.lt (imm 1) (imm 2) (imm 3)).legalModes params = false := by decide
theorem test_legal_reserved : (Instr.output ⟨.reserved 3, 0⟩).legalModes params = false := by decide
theorem test_legal_target : (Instr.jz (imm 1) (imm 2)).legalModes params = false ∧
    (Instr.jz (imm 1) (imm 2)).legalModes { params with jumpTargetKind := .value } = true := by decide

/-! ### Decoding: words of 95_test_vectors.md and of the worked lines of 30_encoding.md -/

/-- V-ADD-3: 22201 is all relative. -/
theorem test_decode_add : decode false [22201, 0, 1, 2, 99] = .ok (.add (rel 0) (rel 1) (rel 2), [99]) := by decide
/-- S5: 1002 is `MUL [4], #3, [4]`, the lowest mode digit the first parameter's. -/
theorem test_decode_mul : decode false [1002, 4, 3, 4, 33] = .ok (.mul (pos 4) (imm 3) (pos 4), [33]) := by decide
/-- V-IO-2 and R72: words 203 and 3. -/
theorem test_decode_input : decode false [203, 0] = .ok (.input (rel 0), []) ∧
    decode false [3, 0] = .ok (.input (pos 0), []) := by decide
/-- V-D-13: the stray thousands digit of 1104 is ignored. -/
theorem test_decode_output : decode false [1104, 5, 99] = .ok (.output (imm 5), [99]) := by decide
/-- V-J-8. -/
theorem test_decode_jnz : decode false [2105, 1, 2] = .ok (.jnz (imm 1) (rel 2), []) := by decide
/-- V-J-3. -/
theorem test_decode_jz : decode false [106, 0, 4] = .ok (.jz (imm 0) (pos 4), []) := by decide
/-- V-C-1. -/
theorem test_decode_lt : decode false [1107, -1, 0, 5] = .ok (.lt (imm (-1)) (imm 0) (pos 5), []) := by decide
/-- V-C-10: the immediate destination is decoded, and faults when resolved. -/
theorem test_decode_eq : decode false [10008, 0, 0, 0] = .ok (.eq (pos 0) (pos 0) (imm 0), []) := by decide
/-- V-R-3. -/
theorem test_decode_arb : decode false [209, 0, 99] = .ok (.arb (rel 0), [99]) := by decide
/-- V-D-10 and V-DS-1: 1099 halts, and is rejected when strict. -/
theorem test_decode_hlt : decode false [1099] = .ok (.hlt, []) ∧ decode true [1099] = .error .strayDigits := by decide
/-- V-D-3, V-D-4, V-D-5: 98, 100 and -1 are no instructions. -/
theorem test_decode_rejects : decode false [98] = .error (.illegalSelector 98) ∧
    decode false [100] = .error (.illegalSelector 0) ∧ decode false [-1] = .error .negativeWord := by decide
/-- The word 4 of a table row with no operand bits. -/
theorem test_table_word : decodeTableWord 8 4 = some (.output (pos 0)) ∧ decodeTableWord 8 99 = some .hlt := by decide
/-- The instruction placed is the one the next step runs. -/
theorem test_fetch_word : nextState (step (State.reset.withFetchWord 8 99)) =
    some { State.reset with mem := [(0, 99)], extent := 4, halted := true } := by decide

/-! ### One step of each instruction -/

/-- S1. -/
theorem test_add : shows (nextState (step (vm [1, 0, 0, 0, 99] []))) [2, 0, 0, 0, 99] 4 0 none = true := by decide
/-- V-ADD-6: MAX_CELL + 1 faults and writes nothing. -/
theorem test_add_overflow : shows (nextState (step (vm [1101, 9223372036854775807, 1, 5, 99, 0] [])))
    [1101, 9223372036854775807, 1, 5, 99, 0] 0 0 (some .overflowFault) = true := by decide
/-- S5. -/
theorem test_mul : shows (nextState (step (vm [1002, 4, 3, 4, 33] []))) [1002, 4, 3, 4, 99] 4 0 none = true := by decide
/-- V-MUL-3: a zero overwrites a non-zero cell. -/
theorem test_mul_zero : shows (nextState (step (vm [1102, 0, -7, 5, 99, 1] []))) [1102, 0, -7, 5, 99, 0] 4 0 none = true := by
  decide
/-- V-IO-9. -/
theorem test_input : shows (nextState (step (vm [3, 2, 0] [99]))) [3, 2, 99] 2 0 none = true := by decide
/-- V-IO-5: the address fault wins over starvation. -/
theorem test_input_closed : shows (nextState (step (setInClosed (vm [3, -1, 99] [])))) [3, -1, 99] 0 0 (some .addressFault) =
    true := by decide
/-- V-IO-7. -/
theorem test_output : (nextState (step (vm [4, 3, 99, 77] []))).map (fun t => (t.outq, t.pc)) = some ([77], 2) := by decide
/-- V-J-7: taken to cell 5, not to what cell 5 holds. -/
theorem test_jnz : shows (nextState (step (vm [5, 4, 5, 99, 1] []))) [5, 4, 5, 99, 1, 0] 5 0 none = false ∧
    shows (nextState (step (vm [5, 4, 5, 99, 1] []))) [5, 4, 5, 99, 1] 5 0 none = true := by decide
/-- V-J-12: a negative target faults although the jump is not taken. -/
theorem test_jnz_not_taken : shows (nextState (step (vm [105, 0, -4, 99] []))) [105, 0, -4, 99] 0 0 (some .addressFault) =
    true := by decide
/-- V-J-3. -/
theorem test_jz : shows (nextState (step (vm [106, 0, 4, 99, 104, 7, 99] []))) [106, 0, 4, 99, 104, 7, 99] 4 0 none = true := by
  decide
/-- V-J-4. -/
theorem test_jz_not_taken : shows (nextState (step (vm [106, 5, 4, 99] []))) [106, 5, 4, 99] 3 0 none = true := by decide
/-- V-C-3: the comparison is signed. -/
theorem test_lt : shows (nextState (step (vm [1107, -5, -3, 5, 99, 9] []))) [1107, -5, -3, 5, 99, 1] 4 0 none = true := by decide
/-- V-C-2: the comparison is strict. -/
theorem test_lt_equal : shows (nextState (step (vm [1107, 3, 3, 5, 99, 9] []))) [1107, 3, 3, 5, 99, 0] 4 0 none = true := by
  decide
/-- V-C-8: 1 written over its own opcode word. -/
theorem test_eq : shows (nextState (step (vm [1108, 1108, 1108, 0, 99] []))) [1, 1108, 1108, 0, 99] 4 0 none = true := by decide
/-- V-C-7. -/
theorem test_eq_unequal : shows (nextState (step (vm [1108, 8, -8, 5, 99, 9] []))) [1108, 8, -8, 5, 99, 0] 4 0 none = true := by
  decide
/-- V-R-3, second step: the operand is read with the old relative base. -/
theorem test_arb : shows (nextState (step { vm [109, 5, 209, 0, 99, 7] [] with pc := 2, rb := 5 })) [109, 5, 209, 0, 99, 7] 4
    12 none = true := by decide
/-- V-H-1: the program counter stays and the tape is not extended. -/
theorem test_hlt : nextState (step (vm [99] [])) = some { vm [99] [] with halted := true } := by decide
/-- V-D-7: the empty Program's first step faults. -/
theorem test_reset_step : nextState (step State.reset) =
    some { State.reset with extent := 1, fault := some .invalidOpcodeFault } := by decide
/-- R32: the reset state is `reset([], 0)`; R127: a Program with a cell out of range is refused. -/
theorem test_reset : resetWith params [] 0 = some State.reset ∧ resetWith params [9223372036854775808] 0 = none := by decide
/-- R67: the notation. -/
theorem test_print : printInstr (.mul (pos 4) (imm 3) (pos 4)) = "MUL [4], #3, [4]" ∧
    printInstr (.output (rel (-1))) = "OUT [rb-1]" ∧ printInstr .hlt = "HLT" := by decide
/-- R67's worked lines, read from text. -/
theorem test_read : assembleText params 0 ["0: MUL [4], #3, [4] ; a comment".toList, "OUT [rb-1]".toList, "".toList,
    " 6: JNZ [11], [0]".toList, "HLT".toList, "10: DATA -1, 8".toList] =
      some [1002, 4, 3, 4, 204, -1, 5, 11, 0, 99, -1, 8] := by decide
/-- R67: `#v` is not accepted on an address-kind parameter; nor is a wrong address. -/
theorem test_read_rejects : assembleText params 0 ["IN #3".toList] = none ∧ assembleText params 0 ["1: HLT".toList] = none ∧
    assembleText params 0 ["MUL [4], #3".toList] = none := by decide
/-- R122, C12: the first instance has halted and the final one has not; only the literal rule stops here. -/
theorem test_ring_rules : ringStopped .anyHalts [{ vm [99] [] with halted := true }, vm [3, 0] [7]] = true ∧
    ringStopped .finalHalts [{ vm [99] [] with halted := true }, vm [3, 0] [7]] = false ∧
    ringStopped .finalHalts [{ vm [0] [] with fault := some .invalidOpcodeFault }, vm [3, 0] [7]] = true := by decide
/-- R122, C12: the turn of the final instance (`OUT #7; HLT`) ends the ring with the result 7, moved on to the first. -/
theorem test_ring_result : runRing params .finalHalts 3 1 1 ⟨[{ vm [99] [] with halted := true }, vm [104, 7, 99] []], none⟩ =
    .ended ⟨[{ vm [99] [7] with halted := true }, { vm [104, 7, 99] [] with pc := 2, halted := true }], some 7⟩ := by decide
/-- R122: an instance is advanced only until it blocks on Input. -/
theorem test_ring_advance : advance params 3 (vm [3, 0] []) = .blocked (vm [3, 0] []) := by decide
/-- R104: the numeric codes. -/
theorem test_fault_codes : [none, some .addressFault, some .invalidOpcodeFault, some .inputStarvationFault,
    some .invalidModeFault, some .overflowFault].map faultCode = [0, 1, 2, 3, 4, 5] := by decide

/-! ### The hypotheses of the obligations are met -/

theorem witness_DecodeOfEncodeReturnsInstr :
    (Instr.add ⟨.reserved 9, -9223372036854775808⟩ (imm 9223372036854775807) (rel (-1))).wellFormed params = true ∧
    Instr.hlt.wellFormed params = true := by decide

theorem witness_EncodeOfStrictDecodeReturnsCells :
    decode true [21101, 7, 35, 1000, 5] = .ok (.add (imm 7) (imm 35) (rel 1000), [5]) := by decide

theorem witness_DecodedFieldsAreTheDigits :
    decode false [90102, 1, 2, -3, 4] = .ok (.mul (imm 1) (pos 2) ⟨.reserved 9, -3⟩, [4]) := by decide

theorem witness_SelectorsAreExactlyTheTen :
    (0 ≤ Memory.read 0 (vm [99] []).mem ∧
      (Memory.read 0 (vm [99] []).mem).toNat % 100 ∈ [1, 2, 3, 4, 5, 6, 7, 8, 9, 99]) ∧
    (0 ≤ Memory.read 0 (vm [0] []).mem ∧
      (Memory.read 0 (vm [0] []).mem).toNat % 100 ∉ [1, 2, 3, 4, 5, 6, 7, 8, 9, 99]) ∧
    (0 ≤ Memory.read 0 (vm [98] []).mem ∧
      (Memory.read 0 (vm [98] []).mem).toNat % 100 ∉ [1, 2, 3, 4, 5, 6, 7, 8, 9, 99]) := by decide

/-- V-D-5 and V-D-2. -/
theorem witness_InvalidWordFaults :
    (running (vm [-1] []) = true ∧ Memory.read 0 (vm [-1] []).mem < 0) ∧
    (running (vm [10] []) = true ∧
      (Memory.read 0 (vm [10] []).mem).toNat % 100 ∉ [1, 2, 3, 4, 5, 6, 7, 8, 9, 99]) := by decide

theorem witness_StrayDigitsAreNotExamined : paramCount (1104 % 100) = some 1 ∧ paramCount (1099 % 100) = some 0 := by decide

theorem witness_StrayDigitsFaultWhenStrict :
    ({ params with strictDecode := true } : Params).memLimit = none ∧ running (vm [199] []) = true ∧
    0 ≤ Memory.read 0 (vm [199] []).mem ∧ paramCount ((Memory.read 0 (vm [199] []).mem).toNat % 100) = some 0 ∧
    (Memory.read 0 (vm [199] []).mem).toNat / 10 ^ (0 + 2) ≠ 0 := by decide

theorem witness_LegalWordsAreTheTable :
    (Instr.add (rel 0) (rel 0) (rel 0)).legalModes params = true ∧ (Instr.add (rel 0) (rel 0) (rel 0)).opcodeWord = 22201 ∧
    22201 ∈ canonicalWords [0, 2] ∧ 1105 ∉ canonicalWords [0, 2] ∧ 1105 ∈ canonicalWords [0, 1, 2] := by decide

/-- The last cell below a MEM_LIMIT, the first at it, and a cell at the extent. -/
theorem witness_MemReadFollowsItsRule :
    inMemory { params with memLimit := some 4 } 3 = true ∧ inMemory { params with memLimit := some 4 } 4 = false ∧
    Memory.below (vm [99] []).extent (vm [99] []).mem = true ∧ (vm [99] []).extent ≤ 1 := by decide

theorem witness_MemWriteFollowsItsRule : Memory.wf (vm [1, 0, 2] []).mem = true := by decide

/-- The addresses -1 and 0, in position mode and as a sum. -/
theorem witness_ResolveFollowsItsRules :
    (-1 : Int) < 0 ∧ ({ State.reset with rb := -5 } : State).rb + 4 < 0 ∧ ({ State.reset with rb := -5 } : State).rb + 5 = 0 ∧
    inMemory params (0 : Int).toNat = true := by decide

/-- The address -1, in position mode, and in relative mode as the third parameter. -/
theorem witness_NegativeAddressFaults :
    ((Instr.output (pos (-1))).operands[0]? = some (pos (-1)) ∧
      noFaultBefore params (.output (pos (-1))) 0 0 = true) ∧
    ((Instr.add (imm 1) (pos 0) (rel 4)).operands[2]? = some (rel 4) ∧
      noFaultBefore params (.add (imm 1) (pos 0) (rel 4)) (-5) 2 = true ∧ (-5 : Int) + (rel 4).raw < 0) := by decide

/-- V-ADD-1, where ADD stores 99 as the next opcode word; the last of the four cells; and V-IO-9, where IN does so. -/
theorem witness_StoreIsSeenByNextFetch :
    (running (vm [1101, 100, -1, 4, 0] []) = true ∧ Memory.wf (vm [1101, 100, -1, 4, 0] []).mem = true ∧
      storeReady (vm [1101, 100, -1, 4, 0] []) (imm 100) (imm (-1)) (pos 4) ∧
      inCell params (readValue State.reset (imm 100) + readValue State.reset (imm (-1))) = true ∧
      inCell params (readValue State.reset (imm 100) * readValue State.reset (imm (-1))) = true ∧
      operandAddress 0 (pos 4) = ((0 + (Instr.add (imm 100) (imm (-1)) (pos 4)).length + 0 : Nat) : Int)) ∧
    (storeReady State.reset (imm 1) (imm 2) (rel 7) ∧
      operandAddress 0 (rel 7) = ((0 + (Instr.lt (imm 1) (imm 2) (rel 7)).length + 3 : Nat) : Int)) ∧
    (running (vm [3, 2, 0] [99]) = true ∧ Memory.wf (vm [3, 2, 0] [99]).mem = true ∧
      addressable (vm [3, 2, 0] [99]) (pos 2) = true ∧ (vm [3, 2, 0] [99]).inq = 99 :: [] ∧ pcFits params (0 + 2) = true ∧
      operandAddress 0 (pos 2) = ((0 + (Instr.input (pos 2)).length + 0 : Nat) : Int)) := by decide

theorem witness_ExtentIsNotObservable : ∃ t, step (vm [4, 1000, 99] []) = .next t := ⟨_, rfl⟩

/-- V-D-15: parameter 1 has a negative address, parameter 3 is immediate. -/
theorem witness_FirstParameterFaultIsRaised :
    firstParamFault params (.add (pos (-1)) (pos 0) (imm 0)) 0 = some .addressFault ∧
    firstParamFault params (.jnz (imm 0) (pos (-4))) 0 = some .addressFault := by decide

/-- The lowest and the highest reserved digit. -/
theorem witness_ReservedModeFaults :
    ((Instr.output ⟨.reserved 3, 0⟩).operands[0]? = some ⟨.reserved 3, 0⟩ ∧
      noFaultBefore params (.output ⟨.reserved 3, 0⟩) 0 0 = true) ∧
    ((Instr.eq (pos 0) (imm 1) ⟨.reserved 9, 0⟩).operands[2]? = some ⟨.reserved 9, 0⟩ ∧
      noFaultBefore params (.eq (pos 0) (imm 1) ⟨.reserved 9, 0⟩) 0 2 = true) := by decide

theorem witness_ImmediateDestinationFaults :
    readable State.reset (pos 0) = true ∧ readable State.reset (rel 0) = true ∧ (imm 0).mode = .immediate := by decide

/-- The last program counter from which four cells fit, and the least sum in range. -/
theorem witness_AddStoresTheSum :
    storeReady { State.reset with pc := 9223372036854775803 } (imm (-9223372036854775807)) (imm (-1)) (rel 0) ∧
    inCell params (readValue State.reset (imm (-9223372036854775807)) + readValue State.reset (imm (-1))) = true := by decide

/-- V-MUL-4. -/
theorem witness_MulStoresTheProduct :
    storeReady State.reset (imm 4294967296) (imm 2147483647) (pos 5) ∧
    inCell params (readValue State.reset (imm 4294967296) * readValue State.reset (imm 2147483647)) = true := by decide

/-- V-C-4. -/
theorem witness_LtStoresTheComparison :
    storeReady State.reset (imm (-9223372036854775808)) (imm 9223372036854775807) (pos 5) := by decide

theorem witness_EqStoresTheComparison : storeReady State.reset (pos 0) (rel 0) (rel 0) := by decide

theorem witness_InputPopsTheOldestValue :
    addressable (vm [3, 2, 0] [1, 2]) (pos 2) = true ∧ (vm [3, 2, 0] [1, 2]).inq = 1 :: [2] ∧
    pcFits params ((vm [3, 2, 0] [1, 2]).pc + 2) = true := by decide

theorem witness_InputOnEmptyQueue :
    addressable State.reset (pos 0) = true ∧ State.reset.inq = [] ∧ State.reset.inClosed = false ∧
    addressable (setInClosed State.reset) (pos 0) = true ∧ (setInClosed State.reset).inq = [] ∧
    (setInClosed State.reset).inClosed = true := by decide

theorem witness_OutputPushesAtTheBack :
    readable State.reset (pos 1000) = true ∧ pcFits params (9223372036854775805 + 2) = true := by decide

theorem witness_OutputStallsOnFullQueue :
    ({ params with outDepth := some 1 } : Params).memLimit = none ∧
    ({ params with outDepth := some 1 } : Params).outDepth = some 1 ∧
    readable { State.reset with outq := [7] } (imm 1) = true ∧ ({ State.reset with outq := [7] } : State).outq.length = 1 := by
  decide

/-- Taken to the last cell a program counter can name, and not taken. -/
theorem witness_JnzSetsThePc :
    (readable State.reset (imm (-1)) = true ∧ addressable State.reset (pos 9223372036854775807) = true ∧
      pcFits params (if readValue State.reset (imm (-1)) ≠ 0 then (operandAddress 0 (pos 9223372036854775807)).toNat
        else 0 + 3) = true) ∧
    (readable State.reset (imm 0) = true ∧
      pcFits params (if readValue State.reset (imm 0) ≠ 0 then (operandAddress 0 (pos 4)).toNat else 0 + 3) = true) := by
  decide

/-- Taken to cell 0, and not taken. -/
theorem witness_JzSetsThePc :
    (readable State.reset (imm 0) = true ∧ addressable State.reset (rel 0) = true ∧
      pcFits params (if readValue State.reset (imm 0) = 0 then (operandAddress 0 (rel 0)).toNat else 0 + 3) = true) ∧
    (readable State.reset (imm 5) = true ∧
      pcFits params (if readValue State.reset (imm 5) = 0 then (operandAddress 0 (rel 0)).toNat else 0 + 3) = true) := by
  decide

/-- V-JV-4 and V-JV-5: a negative target value, taken and not taken; and the target 0. -/
theorem witness_JumpTargetValueVariant :
    ({ params with jumpTargetKind := .value } : Params).memLimit = none ∧
    readable State.reset (imm 1) = true ∧ readable State.reset (imm 0) = true ∧ readable State.reset (imm (-4)) = true ∧
    readValue State.reset (imm (-4)) < 0 ∧ ¬ readValue State.reset (imm 0) < 0 ∧
    pcFits { params with jumpTargetKind := .value } (readValue State.reset (imm (-4))).toNat = true ∧
    pcFits { params with jumpTargetKind := .value } (readValue State.reset (imm 0)).toNat = true ∧
    pcFits { params with jumpTargetKind := .value } (0 + 3) = true := by decide

/-- The least relative base. -/
theorem witness_ArbAddsToRb :
    readable { State.reset with rb := -9223372036854775807 } (imm (-1)) = true ∧
    inCell params (-9223372036854775807 + readValue State.reset (imm (-1))) = true ∧ pcFits params (0 + 2) = true := by decide

/-- V-D-11: 199 halts. -/
theorem witness_HltIsTerminal :
    running (vm [199, 5] []) = true ∧ 0 ≤ Memory.read 0 (vm [199, 5] []).mem ∧
    (Memory.read 0 (vm [199, 5] []).mem).toNat % 100 = 99 := by decide

/-- The ends of the range and the first integers beyond them, with the widths, policies and W infinite. -/
theorem witness_OverflowFilterFollowsPolicy :
    ({ params with width := none } : Params).width = none ∧ params.width = some 64 ∧
    (-(2 : Int) ^ (64 - 1) ≤ 9223372036854775807 ∧ (9223372036854775807 : Int) ≤ 2 ^ (64 - 1) - 1) ∧
    ¬ (9223372036854775808 : Int) ≤ 2 ^ (64 - 1) - 1 ∧ ¬ -(2 : Int) ^ (64 - 1) ≤ -9223372036854775809 ∧
    params.overflowPolicy = .fault ∧ ({ params with overflowPolicy := .wrap } : Params).overflowPolicy = .wrap := by decide

/-- V-ADD-8, V-MUL-6 and V-R-4. -/
theorem witness_OverflowFaultsBeforeTheWrite :
    readable State.reset (imm (-9223372036854775808)) = true ∧ readable State.reset (imm (-1)) = true ∧
    addressable State.reset (pos 5) = true ∧
    inCell params (readValue State.reset (imm (-9223372036854775808)) + readValue State.reset (imm (-1))) = false ∧
    inCell params (readValue State.reset (imm (-9223372036854775808)) * readValue State.reset (imm (-1))) = false ∧
    inCell params (({ State.reset with rb := 9223372036854775807 } : State).rb +
      readValue { State.reset with rb := 9223372036854775807 } (imm 1)) = false := by decide

/-- The first program counters from which four, three and two cells do not fit, and the first address beyond MAX_CELL,
which only a relative target can name. -/
theorem witness_PcBeyondMaxFaults :
    pcFits params (9223372036854775804 + 4) = false ∧ pcFits params (9223372036854775805 + 3) = false ∧
    pcFits params (9223372036854775806 + 2) = false ∧ (vm [] [1]).inq ≠ [] ∧
    readable { State.reset with rb := 1 } (imm 1) = true ∧
    addressable { State.reset with rb := 1 } (rel 9223372036854775807) = true ∧
    pcFits params (operandAddress 1 (rel 9223372036854775807)).toNat = false := by decide

/-- The first program counters from which four, three and two cells do not fit, and a target beyond MAX_CELL. -/
theorem witness_PcBeyondMaxRefusedUnderWrap :
    ({ params with overflowPolicy := .wrap } : Params).memLimit = none ∧
    ({ params with overflowPolicy := .wrap } : Params).jumpTargetKind = .address ∧
    pcFits { params with overflowPolicy := .wrap } (9223372036854775804 + 4) = false ∧
    pcFits { params with overflowPolicy := .wrap } (9223372036854775805 + 3) = false ∧
    pcFits { params with overflowPolicy := .wrap } (9223372036854775806 + 2) = false ∧
    queueFull ({ params with overflowPolicy := .wrap } : Params).outDepth State.reset.outq = false ∧ (vm [] [1]).inq ≠ [] ∧
    readable { State.reset with rb := 1 } (imm 0) = true ∧
    addressable { State.reset with rb := 1 } (rel 9223372036854775807) = true ∧
    pcFits { params with overflowPolicy := .wrap } (operandAddress 1 (rel 9223372036854775807)).toNat = false ∧
    0 ≤ readValue State.reset (imm 0) := by decide

/-- A store, and a fault. -/
theorem witness_StoreInstructionsFrame :
    (∃ t, exec (.lt (imm 1) (imm 2) (pos 7)) State.reset = .next t ∧ t.fault = none) ∧
    (∃ t, exec (.add (imm 9223372036854775807) (imm 1) (pos 7)) State.reset = .next t ∧
      t.fault = some .overflowFault) := ⟨⟨_, rfl, rfl⟩, ⟨_, rfl, rfl⟩⟩

/-- A pop, a stall and a fault. -/
theorem witness_InputFrame :
    (∃ t, exec (.input (pos 7)) (vm [] [5]) = .next t ∧ t.inq = []) ∧
    (∃ t, exec (.input (pos 7)) State.reset = .next t ∧ t.pc = 0) ∧
    (∃ t, exec (.input (imm 7)) (vm [] [5]) = .next t ∧ t.fault = some .invalidModeFault) :=
  ⟨⟨_, rfl, rfl⟩, ⟨_, rfl, rfl⟩, ⟨_, rfl, rfl⟩⟩

theorem witness_NonStoringFrame :
    (∃ t, exec (.output (imm 7)) State.reset = .next t) ∧ (∃ t, exec (.jnz (imm 1) (pos 0)) State.reset = .next t) ∧
    (∃ t, exec (.jz (imm 1) (pos 0)) State.reset = .next t) ∧ (∃ t, exec (.arb (imm 1)) State.reset = .next t) ∧
    (∃ t, exec .hlt State.reset = .next t) ∧
    (∃ t, exec (.arb (pos (-1))) State.reset = .next t ∧ t.fault = some .addressFault) :=
  ⟨⟨_, rfl⟩, ⟨_, rfl⟩, ⟨_, rfl⟩, ⟨_, rfl⟩, ⟨_, rfl⟩, ⟨_, rfl, rfl⟩⟩

theorem witness_StepRunsTheDecodedInstruction :
    running (vm [104, -17, 99] []) = true ∧
    decode params.strictDecode (Memory.read 0 (vm [104, -17, 99] []).mem :: operandCells (vm [104, -17, 99] [])) =
      .ok (.output (imm (-17)), [99, 0]) := by decide

/-- A step of each result. -/
theorem witness_PcAfterEachOutcome :
    (∃ t, stepReport params (vm [105, 1, 4] []) = .stepped .done t) ∧
    (∃ t, stepReport params (vm [3, 0] []) = .stepped .stalled t) ∧
    (∃ t, stepReport params (vm [0] []) = .stepped (.faulted .invalidOpcodeFault) t) ∧
    (∃ t, stepReport params { vm [99] [] with halted := true } = .stepped .idle t) :=
  ⟨⟨_, rfl⟩, ⟨_, rfl⟩, ⟨_, rfl⟩, ⟨_, rfl⟩⟩

theorem witness_StoppedInstanceIsIdle :
    ({ vm [99] [] with halted := true } : State).halted = true ∧
    ({ vm [1, 0, 0, 0] [] with fault := some .addressFault } : State).fault ≠ none := by decide

theorem witness_StalledStepChangesOnlyExtent :
    (∃ t, stepReport params (vm [3] []) = .stepped .stalled t) ∧
    (∃ t, stepReport { params with outDepth := some 1 } { vm [104, 1] [] with outq := [7] } = .stepped .stalled t) := ⟨⟨_, rfl⟩, ⟨_, rfl⟩⟩

theorem witness_FaultsArePrecise :
    ∃ t, stepReport params (vm [1102, -9223372036854775808, -1, 5] []) = .stepped (.faulted .overflowFault) t := ⟨_, rfl⟩

theorem witness_InvariantKeptByEveryStep :
    State.Ok params (vm [1101, -5, -7, 5, 99, 0] [3]) ∧
    (nextState (step (vm [1101, -5, -7, 5, 99, 0] [3]))).isSome = true := by decide

/-- Cells of four bits, with wrapping: 7 + 7 is stored as -2. -/
theorem witness_InvariantKeptUnderEverySetting :
    paramsOk { params with width := some 4, overflowPolicy := .wrap } ∧
    State.Ok { params with width := some 4, overflowPolicy := .wrap } (vm [1, 4, 4, 0, 7] []) ∧
    (∃ t, stepReport { params with width := some 4, overflowPolicy := .wrap } (vm [1, 4, 4, 0, 7] []) = .stepped .done t ∧
      Memory.read 0 t.mem = -2) :=
  ⟨by show 2 ≤ 4; decide, by decide, ⟨_, rfl, rfl⟩⟩

theorem witness_OnlyArbChangesRb :
    ∃ t, step (vm [109, 19] []) = .next t ∧ t.rb ≠ (vm [109, 19] []).rb := ⟨_, rfl, by decide⟩

/-- A step that halts, and a halted instance to push to and to pop from. -/
theorem witness_OnlyHltHalts :
    (∃ r t, stepReport params (vm [99] []) = .stepped r t ∧ t.halted ≠ (vm [99] []).halted) ∧
    (∃ r t, stepReport params { vm [99] [5] with halted := true, outq := [1, 2] } = .stepped r t) ∧
    inCell params 7 = true ∧ queueFull params.inDepth [5] = false ∧ (resetWith params [99] 3).isSome = true :=
  ⟨⟨_, _, rfl, by decide⟩, ⟨_, _, rfl⟩, by decide⟩

theorem witness_EndedRunStaysEnded : ∃ t, runFor params 1 (vm [99] []) = .ended t := ⟨_, rfl⟩

theorem witness_PushCommutesWithStep :
    queueFits (some 2) (vm [3, 5] [1]).inq = true ∧
    (∃ s', pushInput { params with inDepth := some 2 } 7 (vm [3, 5] [1]) = some s') ∧
    (∃ t, stepReport { params with inDepth := some 2 } (vm [3, 5] [1]) = .stepped .done t) := ⟨by decide, ⟨_, rfl⟩, ⟨_, rfl⟩⟩

theorem witness_WaitingInputMeansTheStepStalls :
    params.outDepth = none ∧ waitingInput params (vm [3, 0] []) = true ∧ waitingInput params (vm [3, 0] [1]) = false ∧
    waitingInput params (vm [3, -1] []) = false := by decide

theorem witness_ResetLoadsTheProgram :
    [(9223372036854775807 : Int), -9223372036854775808].all (fun v => inCell params v) = true ∧
    ¬ [(9223372036854775808 : Int)].all (fun v => inCell params v) = true := by decide

theorem witness_HostTransactionsKeepInvariant :
    State.Ok params (vm [99] [5]) ∧ (resetWith params [99] 3).isSome = true ∧
    (pushInput params 7 (vm [99] [5])).isSome = true := by decide

theorem witness_QueuesAreFifo :
    inCell params 7 = true ∧ inCell params 9223372036854775808 = false ∧ (vm [] []).outq = [] ∧ ({ vm [] [] with outq := [1, 2] } : State).outq = 1 :: [2] ∧
    queueFull (some 1) [5] = true ∧ queueFull (some 2) [5] = false := by decide

theorem witness_TransferMovesOneValue :
    ∃ a b, transfer params { vm [] [] with outq := [1, 2] } (vm [] [9]) = some (a, b) ∧ b.inq = [9, 1] := ⟨_, _, rfl, rfl⟩

theorem witness_DumpShowsTheTape : State.Ok params (vm [1, 0, 0] []) := by decide

theorem witness_DeadlockIsPermanent :
    ringDeadlocked params [vm [3, 0] [], vm [203, 1] []] = true ∧
    [vm [3, 0] [], vm [203, 1] []][1]? = some (vm [203, 1] []) := by decide

theorem witness_NetworkStepIsLocal :
    ∃ r after, Network.stepAt params 1 ⟨[vm [3, 0] [], vm [104, 8] []], ringLinks 2⟩ = some (r, after) := ⟨_, _, rfl⟩

end Sys2Proof.Tests
end

section
/-! PROOFS. The halted flag (10_state.md R18): what a step, the host's transactions and a reset do to it. -/

namespace Sys2Proof.Machine

@[simp] theorem report_ok (s : State) : (Act.ok () s).report = .stepped .done s := rfl
@[simp] theorem report_raise (f : FaultKind) (s : State) :
    (Act.raise f s : Act Unit).report = .stepped (.faulted f) (takeFault f s) := rfl
@[simp] theorem report_stall (s : State) : (Act.stall s : Act Unit).report = .stepped .stalled s := rfl
@[simp] theorem report_refuse (r : Refusal) : (Act.refuse r : Act Unit).report = .refused r := rfl

/-! ### The step -/

theorem running_eq_false_of_halted {s : State} (h : s.halted = true) : running s = false := by
  simp [running, h]

theorem step_of_not_running {s : State} (h : running s = false) : step s = .next s := by
  simp [step, h]

theorem stepReport_of_not_running (p : Params) {s : State} (h : running s = false) :
    stepReport p s = .stepped .idle s := by
  simp [stepReport, h]

theorem runStore_ok_halted {p : Params} {compute : Int → Int → State → Act Int} {a b dst : Operand} {s t : State}
    (hc : ∀ x y u, (∃ r, compute x y u = .ok r u) ∨ (∃ f, compute x y u = .raise f u))
    (h : runStore p compute a b dst s = .ok () t) : t.halted = s.halted := by
  rcases runStore_cases p a b dst s hc with ⟨_, _, _, _, _, _, _, _, hok⟩ | ⟨_, _, _, hraise⟩ | ⟨_, _, hrefuse⟩
  · cases hok.symm.trans h; rfl
  · cases hraise.symm.trans h
  · cases hrefuse.symm.trans h

theorem runJump_ok_halted {p : Params} {taken : Int → Bool} {a target : Operand} {s t : State}
    (h : runJump p taken a target s = .ok () t) : t.halted = s.halted := by
  rcases runJump_cases p taken a target s with ⟨_, _, _, _, _, _, hok⟩ | ⟨_, _, _, hraise⟩ | ⟨_, _, hrefuse⟩
  · cases hok.symm.trans h; rfl
  · cases hraise.symm.trans h
  · cases hrefuse.symm.trans h

theorem runInput_ok_halted {p : Params} {dst : Operand} {s t : State} (h : runInput p dst s = .ok () t) :
    t.halted = s.halted := by
  rcases runInput_cases p dst s with
    ⟨_, _, _, _, _, _, _, _, hok⟩ | ⟨_, _, _, hraise⟩ | ⟨_, _, _, _, _, hstall⟩ | ⟨_, _, hrefuse⟩
  · cases hok.symm.trans h; rfl
  · cases hraise.symm.trans h
  · cases hstall.symm.trans h
  · cases hrefuse.symm.trans h

theorem runOutput_ok_halted {p : Params} {a : Operand} {s t : State} (h : runOutput p a s = .ok () t) :
    t.halted = s.halted := by
  rcases runOutput_cases p a s with
    ⟨_, _, _, _, _, hok⟩ | ⟨_, _, _, hraise⟩ | ⟨_, _, _, hstall⟩ | ⟨_, _, hrefuse⟩
  · cases hok.symm.trans h; rfl
  · cases hraise.symm.trans h
  · cases hstall.symm.trans h
  · cases hrefuse.symm.trans h

theorem runArb_ok_halted {p : Params} {a : Operand} {s t : State} (h : runArb p a s = .ok () t) :
    t.halted = s.halted := by
  rcases runArb_cases p a s with ⟨_, _, _, _, _, _, hok⟩ | ⟨_, _, _, hraise⟩ | ⟨_, _, hrefuse⟩
  · cases hok.symm.trans h; rfl
  · cases hraise.symm.trans h
  · cases hrefuse.symm.trans h

/-- An instruction that is done leaves `halted` as it was, but for HLT, which sets it (R83). -/
theorem runInstr_ok_halted {p : Params} {i : Instr} {s t : State} (h : runInstr p i s = .ok () t) :
    t.halted = s.halted ∨ (i = .hlt ∧ t.halted = true) := by
  cases i with
  | add a b dst => exact .inl (runStore_ok_halted (overflowFilter_pure p (fun x y => x + y)) h)
  | mul a b dst => exact .inl (runStore_ok_halted (overflowFilter_pure p (fun x y => x * y)) h)
  | lt a b dst => exact .inl (runStore_ok_halted (fun _ _ _ => .inl ⟨_, rfl⟩) h)
  | eq a b dst => exact .inl (runStore_ok_halted (fun _ _ _ => .inl ⟨_, rfl⟩) h)
  | input dst => exact .inl (runInput_ok_halted h)
  | output a => exact .inl (runOutput_ok_halted h)
  | jnz a target => exact .inl (runJump_ok_halted h)
  | jz a target => exact .inl (runJump_ok_halted h)
  | arb a => exact .inl (runArb_ok_halted h)
  | hlt => cases h; exact .inr ⟨rfl, rfl⟩

/-- However an instruction is reported, only a HLT changes `halted`: a fault and a stall leave it alone. -/
theorem runInstr_report_halted {p : Params} {i : Instr} {s t : State} {r : StepResult}
    (h : (runInstr p i s).report = .stepped r t) : t.halted = s.halted ∨ (i = .hlt ∧ t.halted = true) := by
  rcases runInstr_cases p i s with ⟨u, hrun⟩ | ⟨f, e, _, hrun⟩ | ⟨e, _, hrun, _⟩ | ⟨_, _, hrun⟩ <;> rw [hrun] at h
  case inl => cases h; exact runInstr_ok_halted hrun
  case inr.inl => cases h; exact .inl rfl
  case inr.inr.inl => cases h; exact .inl rfl
  case inr.inr.inr => cases h

/-- A step leaves `halted` as it was, or sets it by the HLT at `pc` (R18). -/
theorem stepReport_halted {p : Params} {s t : State} {r : StepResult} (h : stepReport p s = .stepped r t) :
    t.halted = s.halted ∨ (t.halted = true ∧ ∃ rest, decode p.strictDecode (nextCells s) = .ok (.hlt, rest)) := by
  rcases stepReport_cases p s with ⟨_, hs⟩ | ⟨_, i, rest, hdecode, hs⟩ | ⟨_, hs⟩ | ⟨_, _, hs⟩ <;> rw [hs] at h
  case inl => cases h; exact .inl rfl
  case inr.inl =>
    rcases runInstr_report_halted h with heq | ⟨rfl, ht⟩
    · exact .inl heq
    · exact .inr ⟨ht, rest, hdecode⟩
  case inr.inr.inl => cases h; exact .inl rfl
  case inr.inr.inr => cases h

/-! ### The host's transactions -/

theorem pushInput_eq_some_iff {p : Params} {v : Int} {s s' : State} :
    pushInput p v s = some s' ↔
      inCell p v = true ∧ queueFull p.inDepth s.inq = false ∧ s' = setInq (s.inq ++ [v]) s := by
  simp only [pushInput, Option.ite_none_right_eq_some, Option.some.injEq, Bool.and_eq_true, Bool.not_eq_true',
    and_assoc, eq_comm (b := s')]

theorem popOutput_of_nil {s : State} (h : s.outq = []) : popOutput s = (none, s) := by
  simp [popOutput, h]

theorem popOutput_of_cons {s : State} {x : Int} {rest : List Int} (h : s.outq = x :: rest) :
    popOutput s = (some x, setOutq rest s) := by
  simp [popOutput, h]

theorem resetWith_eq_some_iff {p : Params} {program : List Int} {padding : Nat} {s : State} :
    resetWith p program padding = some s ↔
      program.all (fun v => inCell p v) = true ∧
        s = { State.reset with mem := Memory.ofCells 0 program, extent := program.length + padding } := by
  simp only [resetWith, Option.ite_none_right_eq_some, Option.some.injEq, eq_comm (b := s)]

theorem pushInput_halted {p : Params} {v : Int} {s s' : State} (h : pushInput p v s = some s') :
    s'.halted = s.halted := by
  obtain ⟨_, _, rfl⟩ := pushInput_eq_some_iff.mp h
  exact setInq_halted _ s

@[simp] theorem popOutput_halted (s : State) : (popOutput s).2.halted = s.halted := by
  cases hq : s.outq with
  | nil => rw [popOutput_of_nil hq]
  | cons x rest => rw [popOutput_of_cons hq, setOutq_halted]

@[simp] theorem setInClosed_halted (s : State) : (setInClosed s).halted = s.halted := rfl

@[simp] theorem status_halted (p : Params) (s : State) : (status p s).halted = s.halted := rfl

theorem resetWith_halted {p : Params} {program : List Int} {padding : Nat} {s : State}
    (h : resetWith p program padding = some s) : s.halted = false := by
  obtain ⟨_, rfl⟩ := resetWith_eq_some_iff.mp h
  rfl

/-- Settles O50: `stepReport_halted` gives the first clause, a halted machine is not running and so steps idly, and
each of the host's transactions has its own lemma. -/
theorem onlyHltHalts : Obligations.OnlyHltHalts := by
  unfold Obligations.OnlyHltHalts
  intro p s
  refine ⟨fun r t hs hne => (stepReport_halted hs).resolve_left hne, fun hh => ?_,
    ⟨fun v s' => pushInput_halted, popOutput_halted s, setInClosed_halted s,
      fun program padding s' => resetWith_halted⟩,
    status_halted p s, fun _ => ⟨fun v hv hq => ?_, fun x rest => popOutput_of_cons⟩⟩
  · have hidle : running s = false := running_eq_false_of_halted hh
    refine ⟨step_of_not_running hidle, fun r t hs => ?_⟩
    cases (stepReport_of_not_running p hidle).symm.trans hs
    rfl
  · exact pushInput_eq_some_iff.mpr ⟨hv, hq, rfl⟩

end Sys2Proof.Machine
end

section
/-! PROOFS. Resolving a parameter (30_encoding.md R59, R60, R62), and AddressFault for a negative address (20_memory.md
R37). -/

namespace Sys2Proof.Machine

theorem memRead_of_neg {addr : Int} (h : addr < 0) (p : Params) (s : State) :
    memRead p addr s = .raise .addressFault s := if_pos h

theorem memWrite_of_neg {addr : Int} (h : addr < 0) (p : Params) (v : Int) (s : State) :
    memWrite p addr v s = .raise .addressFault s := if_pos h

/-- Under any MEM_LIMIT a non-negative address in memory can be read (R35). -/
theorem memRead_of_inMemory {p : Params} {addr : Int} (h : 0 ≤ addr) (hmem : inMemory p addr.toNat = true) (s : State) :
    memRead p addr s = .ok (Memory.read addr.toNat s.mem) (touch addr.toNat s) := by
  rw [memRead, if_neg (not_lt.mpr h), if_pos hmem]

/-! ### Position and relative mode alike: the operand names the address `operandAddress` -/

section
variable {o : Operand} (hm : o.mode = .position ∨ o.mode = .relative)
include hm

theorem resolve_read_eq_memRead (p : Params) (s : State) :
    resolve p .read o s = memRead p (operandAddress s.rb o) s := by
  rcases hm with hm | hm <;> simp only [resolve, hm]

theorem resolve_address_eq_ite (p : Params) (s : State) :
    resolve p .address o s =
      if operandAddress s.rb o < 0 then .raise .addressFault s else .ok (operandAddress s.rb o) s := by
  rcases hm with hm | hm <;> simp only [resolve, hm]

theorem resolve_of_neg {s : State} (h : operandAddress s.rb o < 0) (p : Params) (kind : Kind) :
    resolve p kind o s = .raise .addressFault s := by
  cases kind with
  | read => rw [resolve_read_eq_memRead hm, memRead_of_neg h]
  | address => rw [resolve_address_eq_ite hm, if_pos h]

theorem resolve_address_of_nonneg {s : State} (h : 0 ≤ operandAddress s.rb o) (p : Params) :
    resolve p .address o s = .ok (operandAddress s.rb o) s := by
  rw [resolve_address_eq_ite hm, if_neg (not_lt.mpr h)]

theorem resolve_read_of_inMemory {p : Params} {s : State} (h : 0 ≤ operandAddress s.rb o)
    (hmem : inMemory p (operandAddress s.rb o).toNat = true) :
    resolve p .read o s =
      .ok (Memory.read (operandAddress s.rb o).toNat s.mem) (touch (operandAddress s.rb o).toNat s) := by
  rw [resolve_read_eq_memRead hm, memRead_of_inMemory h hmem]

end

/-- Settles O12: the clauses for position and for relative mode are the same lemmas about the address the operand names,
which is `v` in the one mode and `rb + v` in the other. -/
theorem resolveFollowsItsRules : Obligations.ResolveFollowsItsRules := by
  unfold Obligations.ResolveFollowsItsRules
  intro p s v
  have hpos : (⟨.position, v⟩ : Operand).mode = .position ∨ (⟨.position, v⟩ : Operand).mode = .relative := .inl rfl
  have hrel : (⟨.relative, v⟩ : Operand).mode = .position ∨ (⟨.relative, v⟩ : Operand).mode = .relative := .inr rfl
  refine ⟨fun addr w h => ⟨memRead_of_neg h p s, memWrite_of_neg h p w s⟩, rfl, ?_, ?_, ?_, ?_⟩
  · exact fun h => resolve_of_neg hpos h p
  · exact fun h => ⟨resolve_address_of_nonneg hpos h p, resolve_read_eq_memRead hpos p s,
      resolve_read_of_inMemory hpos h⟩
  · exact fun h => resolve_of_neg hrel h p
  · exact fun h => ⟨resolve_address_of_nonneg hrel h p, resolve_read_eq_memRead hrel p s,
      resolve_read_of_inMemory hrel h⟩

end Sys2Proof.Machine
end

section
/-! PROOFS. Which non-negative opcode words are accepted (30_encoding.md R52, R57): the legal selectors are those with a
parameter count, and the three operand cells the Engine looks at hold the operands of any of them. -/

namespace Sys2Proof

theorem paramCount_eq_none_iff {op : Nat} : paramCount op = none ↔ op ∉ [1, 2, 3, 4, 5, 6, 7, 8, 9, 99] := by
  constructor
  · intro h hop
    fin_cases hop <;> cases h
  · intro hop
    unfold paramCount
    split
    case h_11 => rfl
    all_goals exact absurd (by decide) hop

theorem decode_of_illegal_selector {w : Int} (hw : 0 ≤ w) (h : paramCount (w.toNat % 100) = none) (strict : Bool)
    (rest : List Int) : decode strict (w :: rest) = .error (.illegalSelector (w.toNat % 100)) := by
  rw [decode, if_neg (not_lt.mpr hw), h]

/-- Without STRICT_DECODE only the sign and the selector stand between a word and its fields (R57). -/
theorem decode_false_of_legal_selector {w : Int} (hw : 0 ≤ w) {n : Nat} (h : paramCount (w.toNat % 100) = some n)
    (rest : List Int) : decode false (w :: rest) = buildInstr w.toNat rest := by
  rw [decode, if_neg (not_lt.mpr hw), h]
  rfl

/-- Three operand cells are enough for every legal selector, and the instruction built has that selector. -/
theorem buildInstr_of_legal_selector {w : Nat} (h : w % 100 ∈ [1, 2, 3, 4, 5, 6, 7, 8, 9, 99]) (a b d : Int)
    (rest : List Int) :
    ∃ i left, buildInstr w (a :: b :: d :: rest) = .ok (i, left) ∧ i.selector = w % 100 := by
  unfold buildInstr
  generalize w % 100 = op at h ⊢
  fin_cases h <;> exact ⟨_, _, rfl, rfl⟩

end Sys2Proof

namespace Sys2Proof.Machine

theorem fetchDecode_of_decode_ok {p : Params} (hp : p.memLimit = none) {s : State} {i : Instr} {left : List Int}
    (h : decode p.strictDecode (nextCells s) = .ok (i, left)) :
    fetchDecode p s = .ok i { s with extent := max s.extent (s.pc + 1) } := by
  rcases fetchDecode_cases p s with ⟨_, _, hd, hf⟩ | ⟨_, hd, _⟩ | ⟨hlimit, _⟩
  · cases hd.symm.trans h
    exact hf
  · cases hd.symm.trans h
  · exact absurd hp hlimit

theorem fetchDecode_of_decode_error {p : Params} (hp : p.memLimit = none) {s : State} {r : DecodeReject}
    (h : decode p.strictDecode (nextCells s) = .error r) :
    fetchDecode p s = .raise .invalidOpcodeFault { s with extent := max s.extent (s.pc + 1) } := by
  rcases fetchDecode_cases p s with ⟨_, _, hd, _⟩ | ⟨_, _, hf⟩ | ⟨hlimit, _⟩
  · cases hd.symm.trans h
  · exact hf
  · exact absurd hp hlimit

/-- Settles O5: a legal selector has a parameter count, so the word's fields are built; any other has none, so the decoder
rejects the word. -/
theorem selectorsAreExactlyTheTen : Obligations.SelectorsAreExactlyTheTen := by
  unfold Obligations.SelectorsAreExactlyTheTen
  intro s hw
  split
  next hlegal =>
    obtain ⟨n, hcount⟩ := Option.ne_none_iff_exists'.mp fun h => paramCount_eq_none_iff.mp h hlegal
    obtain ⟨i, left, hbuild, hsel⟩ := buildInstr_of_legal_selector hlegal (Memory.read (s.pc + 1) s.mem)
      (Memory.read (s.pc + 2) s.mem) (Memory.read (s.pc + 3) s.mem) []
    have hdecode : decode false (nextCells s) = .ok (i, left) :=
      (decode_false_of_legal_selector hw hcount _).trans hbuild
    exact ⟨i, fetchDecode_of_decode_ok params_memLimit hdecode, hsel⟩
  next hillegal =>
    exact fetchDecode_of_decode_error params_memLimit
      (decode_of_illegal_selector hw (paramCount_eq_none_iff.mpr hillegal) params.strictDecode (operandCells s))

end Sys2Proof.Machine
end

section
/-! PROOFS. The program counter after every outcome of a step (45_engine.md R87): where each instruction shape leaves it
when it is done (42_jumps.md R75 to R77 for the jumps), and that no other outcome moves it. -/

namespace Sys2Proof.Machine

/-! ### An instruction that is done -/

theorem runStore_ok_pc {p : Params} {compute : Int → Int → State → Act Int} {a b dst : Operand} {s t : State}
    (hc : ∀ x y u, (∃ r, compute x y u = .ok r u) ∨ (∃ f, compute x y u = .raise f u))
    (h : runStore p compute a b dst s = .ok () t) : t.pc = s.pc + 4 := by
  rcases runStore_cases p a b dst s hc with ⟨_, _, _, _, _, _, _, _, hok⟩ | ⟨_, _, _, hother⟩ | ⟨_, _, hother⟩
  · cases hok.symm.trans h; rfl
  all_goals cases hother.symm.trans h

theorem runInput_ok_pc {p : Params} {dst : Operand} {s t : State} (h : runInput p dst s = .ok () t) :
    t.pc = s.pc + 2 := by
  rcases runInput_cases p dst s with
    ⟨_, _, _, _, _, _, _, _, hok⟩ | ⟨_, _, _, hother⟩ | ⟨_, _, _, _, _, hother⟩ | ⟨_, _, hother⟩
  · cases hok.symm.trans h; rfl
  all_goals cases hother.symm.trans h

theorem runOutput_ok_pc {p : Params} {a : Operand} {s t : State} (h : runOutput p a s = .ok () t) :
    t.pc = s.pc + 2 := by
  rcases runOutput_cases p a s with ⟨_, _, _, _, _, hok⟩ | ⟨_, _, _, hother⟩ | ⟨_, _, _, hother⟩ | ⟨_, _, hother⟩
  · cases hok.symm.trans h; rfl
  all_goals cases hother.symm.trans h

theorem runArb_ok_pc {p : Params} {a : Operand} {s t : State} (h : runArb p a s = .ok () t) : t.pc = s.pc + 2 := by
  rcases runArb_cases p a s with ⟨_, _, _, _, _, _, hok⟩ | ⟨_, _, _, hother⟩ | ⟨_, _, hother⟩
  · cases hok.symm.trans h; rfl
  all_goals cases hother.symm.trans h

/-- A negative target of a taken jump faults (R78), so the target of one that is done is the new `pc` exactly. -/
theorem runJump_ok_pc {p : Params} {taken : Int → Prop} [DecidablePred taken] {a target : Operand} {s t : State}
    (h : runJump p (fun x => decide (taken x)) a target s = .ok () t) :
    if taken (readValue s a) then (t.pc : Int) = jumpTarget p s target else t.pc = s.pc + 3 := by
  rcases runJump_cases p (fun x => decide (taken x)) a target s with
    ⟨pc', _, _, _, _, hpc, hok⟩ | ⟨_, _, _, hother⟩ | ⟨_, _, hother⟩
  · cases hok.symm.trans h
    simp only [decide_eq_true_eq] at hpc
    split_ifs at hpc ⊢ with htaken
    · obtain ⟨hnonneg, rfl⟩ := hpc
      exact Int.toNat_of_nonneg hnonneg
    · exact hpc
  all_goals cases hother.symm.trans h

/-! ### The step -/

theorem report_eq_done_iff {x : Act Unit} {t : State} : x.report = .stepped .done t ↔ x = .ok () t := by
  cases x <;> simp [Act.report]

/-- A faulted and a stalled instruction leave `pc` alone (R88, R112). -/
theorem runInstr_report_pc_of_ne_done {p : Params} {i : Instr} {s t : State} {r : StepResult}
    (h : (runInstr p i s).report = .stepped r t) (hr : r ≠ .done) : t.pc = s.pc := by
  rcases runInstr_cases p i s with ⟨_, hrun⟩ | ⟨_, _, _, hrun⟩ | ⟨_, _, hrun, _⟩ | ⟨_, _, hrun⟩ <;> rw [hrun] at h
  case inl => cases h; exact absurd rfl hr
  case inr.inl => cases h; rfl
  case inr.inr.inl => cases h; rfl
  case inr.inr.inr => cases h

theorem stepReport_pc_of_ne_done {p : Params} {s t : State} {r : StepResult} (h : stepReport p s = .stepped r t)
    (hr : r ≠ .done) : t.pc = s.pc := by
  rcases stepReport_cases p s with ⟨_, hs⟩ | ⟨_, _, _, _, hs⟩ | ⟨_, hs⟩ | ⟨_, _, hs⟩ <;> rw [hs] at h
  case inl => cases h; rfl
  case inr.inl => exact (runInstr_report_pc_of_ne_done h hr :)
  case inr.inr.inl => cases h; rfl
  case inr.inr.inr => cases h

/-- A step that is done has run the instruction at `pc` to its end. -/
theorem runInstr_ok_of_stepReport_done {p : Params} {s t : State} (h : stepReport p s = .stepped .done t) :
    ∃ i rest, decode p.strictDecode (nextCells s) = .ok (i, rest) ∧
      runInstr p i { s with extent := max s.extent (s.pc + 1) } = .ok () t := by
  rcases stepReport_cases p s with ⟨_, hs⟩ | ⟨_, i, rest, hdecode, hs⟩ | ⟨_, hs⟩ | ⟨_, _, hs⟩ <;> rw [hs] at h
  case inr.inl => exact ⟨i, rest, hdecode, report_eq_done_iff.mp h⟩
  all_goals cases h

/-- Settles O41: only an instruction that is done moves `pc`, and its shape says where to; fetching its opcode word has
changed nothing but the extent, which neither the condition nor the target of a jump looks at. -/
theorem pcAfterEachOutcome : Obligations.PcAfterEachOutcome := by
  unfold Obligations.PcAfterEachOutcome
  intro s t r h
  refine ⟨stepReport_pc_of_ne_done h, ?_⟩
  rintro rfl
  obtain ⟨i, rest, hdecode, hrun⟩ := runInstr_ok_of_stepReport_done h
  refine ⟨i, rest, hdecode, ?_⟩
  cases i with
  | add a b dst => exact (runStore_ok_pc (overflowFilter_pure params (fun x y => x + y)) hrun :)
  | mul a b dst => exact (runStore_ok_pc (overflowFilter_pure params (fun x y => x * y)) hrun :)
  | lt a b dst => exact (runStore_ok_pc (fun _ _ _ => .inl ⟨_, rfl⟩) hrun :)
  | eq a b dst => exact (runStore_ok_pc (fun _ _ _ => .inl ⟨_, rfl⟩) hrun :)
  | input dst => exact (runInput_ok_pc hrun :)
  | output a => exact (runOutput_ok_pc hrun :)
  | jnz a target => exact (runJump_ok_pc (taken := fun x => x ≠ 0) hrun :)
  | jz a target => exact (runJump_ok_pc (taken := fun x => x = 0) hrun :)
  | arb a => exact (runArb_ok_pc hrun :)
  | hlt => cases hrun; rfl

end Sys2Proof.Machine
end

section
/-! PROOFS. The decoder and the encoder (30_encoding.md R49 to R57, R66): what an accepted word says about the instruction
is one equivalence, from which both round trips follow; the digit order is that of R55 (D1). -/

namespace Sys2Proof

/-! ### The fields of an accepted word -/

/-- Parameters with the raw operands `vs`, their modes from the digits of `w` (R55). -/
def operandsOf (w : Nat) (vs : List Int) : List Operand := vs.mapIdx fun k v => operandOf w (k + 1) v

theorem operandsOf_eq_iff {w : Nat} {os : List Operand} :
    operandsOf w (os.map fun o => o.raw) = os ↔
      ∀ k o, os[k]? = some o → o.mode = modeOfDigit (digit w (k + 2)) := by
  simp only [List.ext_getElem?_iff, operandsOf, List.getElem?_mapIdx, List.getElem?_map, Option.map_map]
  refine forall_congr' fun k => ?_
  cases os[k]? with
  | none => simp
  | some o =>
    obtain ⟨m, v⟩ := o
    simp [operandOf, eq_comm]

/-- Everything an accepted list of cells says about the instruction built from it. -/
theorem buildInstr_eq_ok_iff {w : Nat} {cells : List Int} {i : Instr} {rest : List Int} :
    buildInstr w cells = .ok (i, rest) ↔
      i.selector = w % 100 ∧ cells = i.operands.map (fun o => o.raw) ++ rest ∧
        operandsOf w (i.operands.map fun o => o.raw) = i.operands := by
  constructor
  · intro h
    unfold buildInstr at h
    split at h <;> cases h <;> rename_i hsel <;> exact ⟨hsel.symm, rfl, rfl⟩
  · rintro ⟨hsel, rfl, hops⟩
    cases i <;> simp only [Instr.operands, operandsOf, List.map_cons, List.map_nil, List.mapIdx_cons, List.mapIdx_nil,
      List.cons.injEq, and_true, Nat.zero_add] at hops <;>
      simp [buildInstr, ← hsel, Instr.selector, Instr.operands, hops]

/-- What the decoder checks before it builds the instruction: the sign, and if `strict` the stray digits. -/
theorem decode_cons_eq_ok_iff {strict : Bool} {w : Int} {cells : List Int} {i : Instr} {rest : List Int} :
    decode strict (w :: cells) = .ok (i, rest) ↔
      0 ≤ w ∧ (strict = true → w.toNat / 10 ^ (i.operands.length + 2) = 0) ∧
        buildInstr w.toNat cells = .ok (i, rest) := by
  have hcount (hbuild : buildInstr w.toNat cells = .ok (i, rest)) :
      paramCount (w.toNat % 100) = some i.operands.length := by
    rw [← (buildInstr_eq_ok_iff.mp hbuild).1, paramCount_selector]
  constructor
  · intro h
    simp only [decode] at h
    split_ifs at h with hneg
    split at h
    next => cases h
    next n hn =>
      split_ifs at h with hstray
      have hlen : n = i.operands.length := Option.some.inj (hn.symm.trans (hcount h))
      subst hlen
      exact ⟨not_lt.mp hneg, fun hs => by simpa [hs] using hstray, h⟩
  · rintro ⟨hw, hstray, hbuild⟩
    have hok : ¬ (strict && decide (w.toNat / 10 ^ (i.operands.length + 2) ≠ 0)) = true := by simpa using hstray
    simp only [decode, if_neg (not_lt.mpr hw), hcount hbuild, if_neg hok, hbuild]

/-- Settles O3: the fields of the built instruction, read off `buildInstr_eq_ok_iff`. -/
theorem decodedFieldsAreTheDigits : Obligations.DecodedFieldsAreTheDigits := by
  unfold Obligations.DecodedFieldsAreTheDigits
  intro strict w cells i rest h
  obtain ⟨hw, _, hbuild⟩ := decode_cons_eq_ok_iff.mp h
  obtain ⟨hsel, rfl, hops⟩ := buildInstr_eq_ok_iff.mp hbuild
  refine ⟨hw, hsel, operandsOf_eq_iff.mp hops, rfl, ?_⟩
  simp only [Instr.length, List.length_cons, List.length_append, List.length_map]
  omega

/-! ### The mode digits of an opcode word -/

/-- The digits of a list of modes are those of any number that spells them. -/
theorem modeDigits_of_digits {x : Nat} {os : List Operand}
    (h : ∀ k o, os[k]? = some o → o.mode = modeOfDigit (x / 10 ^ k % 10)) : modeDigits os = x % 10 ^ os.length := by
  induction os generalizing x with
  | nil => simp [modeDigits, Nat.mod_one]
  | cons o rest ih =>
    have htail : modeDigits rest = x / 10 % 10 ^ rest.length := by
      refine ih fun k o' ho' => ?_
      rw [Nat.div_div_eq_div_mul, ← pow_succ']
      exact h (k + 1) o' ho'
    rw [modeDigits, h 0 o rfl, digit_modeOfDigit, htail, pow_zero, Nat.div_one, List.length_cons, pow_succ',
      Nat.mod_mul]

theorem modeDigits_digit {os : List Operand} (hlt : ∀ o ∈ os, o.mode.digit < 10) {k : Nat} {o : Operand}
    (h : os[k]? = some o) : modeDigits os / 10 ^ k % 10 = o.mode.digit := by
  induction os generalizing k with
  | nil => simp at h
  | cons o' rest ih =>
    have ho' : o'.mode.digit < 10 := hlt o' (by simp)
    cases k with
    | zero =>
      cases h
      rw [modeDigits, pow_zero, Nat.div_one, Nat.add_mul_mod_self_left, Nat.mod_eq_of_lt ho']
    | succ k =>
      rw [pow_succ', ← Nat.div_div_eq_div_mul, modeDigits, Nat.add_mul_div_left _ _ (by decide),
        Nat.div_eq_of_lt ho', Nat.zero_add]
      exact ih (fun o ho => hlt o (List.mem_cons_of_mem _ ho)) h

theorem modeDigits_lt {os : List Operand} (hlt : ∀ o ∈ os, o.mode.digit < 10) : modeDigits os < 10 ^ os.length := by
  induction os with
  | nil => simp [modeDigits]
  | cons o rest ih =>
    have ho : o.mode.digit < 10 := hlt o (by simp)
    have hrest := ih fun o ho => hlt o (List.mem_cons_of_mem _ ho)
    rw [modeDigits, List.length_cons, pow_succ']
    omega

theorem selector_lt (i : Instr) : i.selector < 100 := by
  cases i <;> simp [Instr.selector]

theorem opcodeWord_mod (i : Instr) : i.opcodeWord % 100 = i.selector :=
  (Laws.CanonicalWord.of_selector_lt (selector_lt i)).1

theorem opcodeWord_div (i : Instr) : i.opcodeWord / 100 = modeDigits i.operands := by
  rw [Instr.opcodeWord, Nat.add_mul_div_left _ _ (by decide), Nat.div_eq_of_lt (selector_lt i), Nat.zero_add]

theorem div_ten_pow_add_two (w k : Nat) : w / 10 ^ (k + 2) = w / 100 / 10 ^ k := by
  rw [Nat.div_div_eq_div_mul, Nat.pow_add, Nat.mul_comm]

/-! ### Both round trips -/

/-- Settles O1: the opcode word's low digits are the selector, each higher one is the digit of a well-formed mode, and
there are no more. -/
theorem decodeOfEncodeReturnsInstr : Obligations.DecodeOfEncodeReturnsInstr := by
  unfold Obligations.DecodeOfEncodeReturnsInstr
  intro p strict i rest hwf
  have hmode (o : Operand) (ho : o ∈ i.operands) : o.mode.wellFormed = true := by
    have := List.all_eq_true.mp hwf o ho
    simp only [Operand.wellFormed, Bool.and_eq_true] at this
    exact this.1
  have hlt (o : Operand) (ho : o ∈ i.operands) : o.mode.digit < 10 := mode_digit_lt (hmode o ho)
  have hops : operandsOf i.opcodeWord (i.operands.map fun o => o.raw) = i.operands := by
    refine operandsOf_eq_iff.mpr fun k o ho => ?_
    rw [digit, div_ten_pow_add_two, opcodeWord_div, modeDigits_digit hlt ho,
      modeOfDigit_digit (hmode o (List.mem_of_getElem? ho))]
  refine decode_cons_eq_ok_iff.mpr ⟨Int.natCast_nonneg _, fun _ => ?_, ?_⟩
  · rw [Int.toNat_natCast, div_ten_pow_add_two, opcodeWord_div, Nat.div_eq_of_lt (modeDigits_lt hlt)]
  · rw [Int.toNat_natCast]
    exact buildInstr_eq_ok_iff.mpr ⟨(opcodeWord_mod i).symm, rfl, hops⟩

/-- Settles O2: with no stray digits the modes spell the whole of the word above its selector. -/
theorem encodeOfStrictDecodeReturnsCells : Obligations.EncodeOfStrictDecodeReturnsCells := by
  unfold Obligations.EncodeOfStrictDecodeReturnsCells
  intro cells i rest h
  cases cells with
  | nil => cases h
  | cons w cells =>
    obtain ⟨hw, hstray, hbuild⟩ := decode_cons_eq_ok_iff.mp h
    obtain ⟨hsel, rfl, hops⟩ := buildInstr_eq_ok_iff.mp hbuild
    have hlt : w.toNat / 100 < 10 ^ i.operands.length := by
      have := hstray rfl
      rw [div_ten_pow_add_two, Nat.div_eq_zero_iff_lt (by positivity)] at this
      exact this
    have hdigits : modeDigits i.operands = w.toNat / 100 := by
      rw [modeDigits_of_digits (x := w.toNat / 100), Nat.mod_eq_of_lt hlt]
      intro k o ho
      rw [← div_ten_pow_add_two]
      exact operandsOf_eq_iff.mp hops k o ho
    have hword : (i.opcodeWord : Int) = w := by
      rw [Instr.opcodeWord, hsel, hdigits, Nat.mod_add_div, Int.toNat_of_nonneg hw]
    rw [encode, hword, List.cons_append]

/-! ### Digits that no parameter consumes -/

theorem digit_mod_pow {j m : Nat} (h : j < m) (w : Nat) : digit (w % 10 ^ m) j = digit w j := by
  obtain ⟨d, rfl⟩ := Nat.exists_eq_add_of_lt h
  rw [digit, digit, show 10 ^ (j + d + 1) = 10 ^ j * 10 ^ (d + 1) by ring, Nat.mod_mul_right_div_self,
    Nat.mod_mod_of_dvd _ (dvd_pow_self 10 (Nat.succ_ne_zero d))]

/-- Building an instruction looks at the selector and at the digits of its parameters only. -/
theorem buildInstr_congr {w w' n : Nat} (hsel : w' % 100 = w % 100) (hn : paramCount (w % 100) = some n)
    (hop : ∀ k v, k ≤ n → operandOf w' k v = operandOf w k v) (cells : List Int) :
    buildInstr w cells = buildInstr w' cells := by
  unfold buildInstr
  rw [hsel]
  split
  case h_10 | h_11 => rfl
  all_goals
    rename_i hw
    rw [hw] at hn
    cases hn
    simp [hop]

/-- Settles O7: the selector and the digits of the parameters all lie below weight `10^(n+2)`. -/
theorem strayDigitsAreNotExamined : Obligations.StrayDigitsAreNotExamined := by
  unfold Obligations.StrayDigitsAreNotExamined
  intro w n rest hn
  have hsel : w % 10 ^ (n + 2) % 100 = w % 100 := Nat.mod_mod_of_dvd _ (pow_dvd_pow 10 (Nat.le_add_left 2 n))
  have hop (k : Nat) (v : Int) (hk : k ≤ n) : operandOf (w % 10 ^ (n + 2)) k v = operandOf w k v := by
    rw [operandOf, operandOf, digit_mod_pow (by omega)]
  rw [decode_false_of_legal_selector (n := n) (by omega) (by simpa using hn),
    decode_false_of_legal_selector (n := n) (by omega) (by rw [Int.toNat_natCast, hsel, hn]), Int.toNat_natCast,
    Int.toNat_natCast, buildInstr_congr hsel hn hop]

/-- Settles O4: each word decoded by evaluation. -/
theorem wordsOfTheSpecDecode : Obligations.WordsOfTheSpecDecode := by
  unfold Obligations.WordsOfTheSpecDecode
  decide

end Sys2Proof
end

section
/-! PROOFS. The opcode words of legal instructions (30_encoding.md R66): a parameter's legal modes are the digits of its
kind, and the table lists every combination of them. -/

namespace Sys2Proof

/-! ### The instructions by shape (R53) -/

/-- The operations of the `rra` shape: two read parameters and a destination. -/
abbrev storeForms (a b dst : Operand) : List Instr := [.add a b dst, .mul a b dst, .lt a b dst, .eq a b dst]

/-- The operations of the `r` shape. -/
abbrev readForms (a : Operand) : List Instr := [.output a, .arb a]

/-- The jumps: a read parameter and a target. -/
abbrev jumpForms (a target : Operand) : List Instr := [.jnz a target, .jz a target]

theorem exists_instr_iff {P : Instr → Prop} :
    (∃ i, P i) ↔
      (∃ a b dst, ∃ i ∈ storeForms a b dst, P i) ∨ (∃ dst, P (.input dst)) ∨ (∃ a, ∃ i ∈ readForms a, P i) ∨
      (∃ a target, ∃ i ∈ jumpForms a target, P i) ∨ P .hlt := by
  constructor
  · rintro ⟨i, h⟩
    cases i with
    | add a b dst | mul a b dst | lt a b dst | eq a b dst => exact .inl ⟨a, b, dst, _, by simp, h⟩
    | input dst => exact .inr (.inl ⟨dst, h⟩)
    | output a | arb a => exact .inr (.inr (.inl ⟨a, _, by simp, h⟩))
    | jnz a target | jz a target => exact .inr (.inr (.inr (.inl ⟨a, target, _, by simp, h⟩)))
    | hlt => exact .inr (.inr (.inr (.inr h)))
  · rintro (⟨a, b, dst, i, _, h⟩ | ⟨dst, h⟩ | ⟨a, i, _, h⟩ | ⟨a, target, i, _, h⟩ | h) <;> exact ⟨_, h⟩

/-! ### The table -/

/-- The digits of the modes a parameter of the kind may have (R56, R61). -/
def Kind.legalDigits : Kind → List Nat
  | .read => [0, 1, 2]
  | .address => [0, 2]

theorem digit_mem_legalDigits {k : Kind} {m : Mode} (h : Mode.legalFor k m = true) : m.digit ∈ k.legalDigits := by
  cases k <;> cases m <;> simp_all [Mode.legalFor, Mode.digit, Kind.legalDigits]

/-- A parameter whose mode has the digit `d`. -/
def operandOfDigit (d : Nat) : Operand := ⟨modeOfDigit d, 0⟩

theorem legalFor_operandOfDigit {k : Kind} {d : Nat} (h : d ∈ k.legalDigits) :
    Mode.legalFor k (operandOfDigit d).mode = true := by
  cases k <;> fin_cases h <;> rfl

@[simp] theorem operandOfDigit_digit (d : Nat) : (operandOfDigit d).mode.digit = d := digit_modeOfDigit d

end Sys2Proof

namespace Sys2Proof.Machine

/-- The table of R66 row by row, for the kind of the second parameter of operations 5 and 6. -/
theorem mem_canonicalWords_iff {target : Kind} {w : Nat} :
    w ∈ canonicalWords target.legalDigits ↔
      (∃ op ∈ [1, 2, 7, 8], ∃ m1 ∈ Kind.read.legalDigits, ∃ m2 ∈ Kind.read.legalDigits,
        ∃ m3 ∈ Kind.address.legalDigits, op + 100 * m1 + 1000 * m2 + 10000 * m3 = w) ∨
      (∃ m1 ∈ Kind.address.legalDigits, 3 + 100 * m1 = w) ∨
      (∃ op ∈ [4, 9], ∃ m1 ∈ Kind.read.legalDigits, op + 100 * m1 = w) ∨
      (∃ op ∈ [5, 6], ∃ m1 ∈ Kind.read.legalDigits, ∃ m2 ∈ target.legalDigits, op + 100 * m1 + 1000 * m2 = w) ∨
      w = 99 := by
  simp only [canonicalWords, List.mem_append, List.mem_flatMap, List.mem_map, List.mem_singleton, or_assoc]
  rfl

/-! ### The legal words of each shape are those of its rows -/

section
variable {p : Params} {w : Nat}

theorem exists_legal_store_iff :
    (∃ a b dst, ∃ i ∈ storeForms a b dst,
      i.legalModes p = true ∧ i.opcodeWord = w) ↔
      ∃ op ∈ [1, 2, 7, 8], ∃ m1 ∈ Kind.read.legalDigits, ∃ m2 ∈ Kind.read.legalDigits,
        ∃ m3 ∈ Kind.address.legalDigits, op + 100 * m1 + 1000 * m2 + 10000 * m3 = w := by
  have hlegal {a b dst : Operand} {i : Instr} (hi : i ∈ storeForms a b dst) :
      i.legalModes p = true ↔ Mode.legalFor .read a.mode = true ∧ Mode.legalFor .read b.mode = true ∧
        Mode.legalFor .address dst.mode = true := by
    fin_cases hi <;> simp [Instr.legalModes, Instr.kinds, Instr.operands]
  have hword {a b dst : Operand} {i : Instr} (hi : i ∈ storeForms a b dst) :
      i.selector + 100 * a.mode.digit + 1000 * b.mode.digit + 10000 * dst.mode.digit = i.opcodeWord := by
    fin_cases hi <;> simp only [Instr.opcodeWord, Instr.operands, modeDigits] <;> omega
  constructor
  · rintro ⟨a, b, dst, i, hi, hl, rfl⟩
    obtain ⟨ha, hb, hd⟩ := (hlegal hi).mp hl
    exact ⟨i.selector, by fin_cases hi <;> simp [Instr.selector], _, digit_mem_legalDigits ha, _,
      digit_mem_legalDigits hb, _, digit_mem_legalDigits hd, hword hi⟩
  · rintro ⟨op, hop, m1, h1, m2, h2, m3, h3, rfl⟩
    obtain ⟨i, hi, rfl⟩ : ∃ i ∈ storeForms (operandOfDigit m1) (operandOfDigit m2) (operandOfDigit m3),
        i.selector = op := by
      fin_cases hop <;> simp [Instr.selector]
    refine ⟨_, _, _, i, hi, (hlegal hi).mpr ⟨?_, ?_, ?_⟩, by simp [← hword hi]⟩
    exacts [legalFor_operandOfDigit h1, legalFor_operandOfDigit h2, legalFor_operandOfDigit h3]

theorem exists_legal_jump_iff :
    (∃ a target, ∃ i ∈ jumpForms a target, i.legalModes p = true ∧ i.opcodeWord = w) ↔
      ∃ op ∈ [5, 6], ∃ m1 ∈ Kind.read.legalDigits, ∃ m2 ∈ (targetKind p).legalDigits,
        op + 100 * m1 + 1000 * m2 = w := by
  have hlegal {a target : Operand} {i : Instr} (hi : i ∈ jumpForms a target) :
      i.legalModes p = true ↔
        Mode.legalFor .read a.mode = true ∧ Mode.legalFor (targetKind p) target.mode = true := by
    fin_cases hi <;> simp [Instr.legalModes, Instr.kinds, Instr.operands]
  have hword {a target : Operand} {i : Instr} (hi : i ∈ jumpForms a target) :
      i.selector + 100 * a.mode.digit + 1000 * target.mode.digit = i.opcodeWord := by
    fin_cases hi <;> simp only [Instr.opcodeWord, Instr.operands, modeDigits] <;> omega
  constructor
  · rintro ⟨a, target, i, hi, hl, rfl⟩
    obtain ⟨ha, ht⟩ := (hlegal hi).mp hl
    exact ⟨i.selector, by fin_cases hi <;> simp [Instr.selector], _, digit_mem_legalDigits ha, _,
      digit_mem_legalDigits ht, hword hi⟩
  · rintro ⟨op, hop, m1, h1, m2, h2, rfl⟩
    obtain ⟨i, hi, rfl⟩ : ∃ i ∈ jumpForms (operandOfDigit m1) (operandOfDigit m2), i.selector = op := by
      fin_cases hop <;> simp [Instr.selector]
    refine ⟨_, _, i, hi, (hlegal hi).mpr ⟨?_, ?_⟩, by simp [← hword hi]⟩
    exacts [legalFor_operandOfDigit h1, legalFor_operandOfDigit h2]

theorem exists_legal_read_iff :
    (∃ a, ∃ i ∈ readForms a, i.legalModes p = true ∧ i.opcodeWord = w) ↔
      ∃ op ∈ [4, 9], ∃ m1 ∈ Kind.read.legalDigits, op + 100 * m1 = w := by
  have hlegal {a : Operand} {i : Instr} (hi : i ∈ readForms a) :
      i.legalModes p = true ↔ Mode.legalFor .read a.mode = true := by
    fin_cases hi <;> simp [Instr.legalModes, Instr.kinds, Instr.operands]
  have hword {a : Operand} {i : Instr} (hi : i ∈ readForms a) :
      i.selector + 100 * a.mode.digit = i.opcodeWord := by
    fin_cases hi <;> rfl
  constructor
  · rintro ⟨a, i, hi, hl, rfl⟩
    exact ⟨i.selector, by fin_cases hi <;> simp [Instr.selector], _, digit_mem_legalDigits ((hlegal hi).mp hl),
      hword hi⟩
  · rintro ⟨op, hop, m1, h1, rfl⟩
    obtain ⟨i, hi, rfl⟩ : ∃ i ∈ readForms (operandOfDigit m1), i.selector = op := by
      fin_cases hop <;> simp [Instr.selector]
    exact ⟨_, i, hi, (hlegal hi).mpr (legalFor_operandOfDigit h1), by simp [← hword hi]⟩

theorem exists_legal_input_iff :
    (∃ dst, (Instr.input dst).legalModes p = true ∧ (Instr.input dst).opcodeWord = w) ↔
      ∃ m1 ∈ Kind.address.legalDigits, 3 + 100 * m1 = w := by
  have hlegal (dst : Operand) : (Instr.input dst).legalModes p = true ↔ Mode.legalFor .address dst.mode = true := by
    simp [Instr.legalModes, Instr.kinds, Instr.operands]
  constructor
  · rintro ⟨dst, hl, rfl⟩
    exact ⟨_, digit_mem_legalDigits ((hlegal dst).mp hl), rfl⟩
  · rintro ⟨m1, h1, rfl⟩
    exact ⟨operandOfDigit m1, (hlegal _).mpr (legalFor_operandOfDigit h1),
      congrArg (3 + 100 * ·) (operandOfDigit_digit m1)⟩

theorem hlt_legal_iff : (Instr.hlt.legalModes p = true ∧ Instr.hlt.opcodeWord = w) ↔ w = 99 :=
  (and_iff_right rfl).trans eq_comm

end

/-- Settles O9: shape by shape, the legal words are the rows of the table. -/
theorem legalWordsAreTheTable : Obligations.LegalWordsAreTheTable := by
  unfold Obligations.LegalWordsAreTheTable
  refine ⟨by decide, by decide, by decide, by decide, fun p w => ?_⟩
  have hrows : (∃ i : Instr, i.legalModes p = true ∧ i.opcodeWord = w) ↔
      w ∈ canonicalWords (targetKind p).legalDigits := by
    rw [mem_canonicalWords_iff, exists_instr_iff, exists_legal_store_iff, exists_legal_input_iff,
      exists_legal_read_iff, exists_legal_jump_iff, hlt_legal_iff]
  rw [hrows]
  cases hk : p.jumpTargetKind <;> simp only [targetKind, hk] <;> rfl

end Sys2Proof.Machine
end

section
/-! PROOFS. The step (45_engine.md R86 to R89, 60_exceptions.md R112): how it follows from the fetched word, and what a stall
and a fault leave. -/

namespace Sys2Proof

theorem decode_of_neg {w : Int} (h : w < 0) (strict : Bool) (rest : List Int) :
    decode strict (w :: rest) = .error .negativeWord := if_pos h

theorem decode_of_stray {w : Int} (hw : 0 ≤ w) {n : Nat} (hn : paramCount (w.toNat % 100) = some n)
    (hstray : w.toNat / 10 ^ (n + 2) ≠ 0) (rest : List Int) : decode true (w :: rest) = .error .strayDigits := by
  simp only [decode, if_neg (not_lt.mpr hw), hn]
  exact if_pos (by simpa using hstray)

theorem decode_hlt {w : Int} (hw : 0 ≤ w) (h : w.toNat % 100 = 99) (rest : List Int) :
    decode false (w :: rest) = .ok (.hlt, rest) :=
  decode_cons_eq_ok_iff.mpr ⟨hw, by simp, buildInstr_eq_ok_iff.mpr ⟨h.symm, rfl, rfl⟩⟩

end Sys2Proof

namespace Sys2Proof.Machine

/-! ### The two forms of the step -/

theorem report_outcome (x : Act Unit) : x.report.outcome = x.outcome := by
  cases x <;> rfl

/-- Settles O40: both forms fetch, decode and run alike, and a report keeps the outcome of what it reports. -/
theorem stepIsTheReportsState : Obligations.StepIsTheReportsState := by
  unfold Obligations.StepIsTheReportsState
  intro s
  cases hr : running s
  · rw [step_of_not_running hr, stepReport_of_not_running params hr]
    rfl
  · rw [step, stepReport, if_pos hr, if_pos hr]
    cases fetchDecode params s with
    | ok i s1 => exact (exec_eq_runInstr i s1).trans (report_outcome _).symm
    | raise | stall | refuse => rfl

theorem step_eq_next_iff {s t : State} : step s = .next t ↔ ∃ r, stepReport params s = .stepped r t := by
  rw [show step s = _ from stepIsTheReportsState s]
  cases stepReport params s <;> simp [Report.outcome]

theorem running_eq_false_iff {s : State} : running s = false ↔ s.halted = true ∨ s.fault ≠ none := by
  cases hh : s.halted <;> cases hf : s.fault <;> simp [running, hh, hf]

/-- Settles O42: with either, the machine is not Running. -/
theorem stoppedInstanceIsIdle : Obligations.StoppedInstanceIsIdle := by
  unfold Obligations.StoppedInstanceIsIdle
  intro p s h
  have hr : running s = false := running_eq_false_iff.mpr h
  exact ⟨step_of_not_running hr, stepReport_of_not_running p hr⟩

/-! ### A Running machine -/

section
variable {p : Params} (hp : p.memLimit = none) {s : State} (hr : running s = true)
include hp hr

theorem stepReport_of_decode_ok {i : Instr} {rest : List Int}
    (h : decode p.strictDecode (nextCells s) = .ok (i, rest)) :
    stepReport p s = (runInstr p i { s with extent := max s.extent (s.pc + 1) }).report :=
  stepReport_of_fetch hr (fetchDecode_of_decode_ok hp h)

theorem stepReport_of_decode_error {r : DecodeReject} (h : decode p.strictDecode (nextCells s) = .error r) :
    stepReport p s = .stepped (.faulted .invalidOpcodeFault)
      { s with fault := some .invalidOpcodeFault, extent := max s.extent (s.pc + 1) } := by
  rw [stepReport, if_pos hr, fetchDecode_of_decode_error hp h]
  rfl

end

/-- Settles O39: the fetch leaves the state with the opcode word's cell accessed. -/
theorem stepRunsTheDecodedInstruction : Obligations.StepRunsTheDecodedInstruction := by
  unfold Obligations.StepRunsTheDecodedInstruction
  intro s i rest hr h
  rw [show step s = _ from stepIsTheReportsState s, stepReport_of_decode_ok params_memLimit hr h, report_outcome,
    exec_eq_runInstr]

/-- Settles O6: the decoder rejects such a word, by its sign or by its selector. -/
theorem invalidWordFaults : Obligations.InvalidWordFaults := by
  unfold Obligations.InvalidWordFaults
  intro s hr h
  have hreject : ∃ r, decode params.strictDecode (nextCells s) = .error r := by
    by_cases hneg : Memory.read s.pc s.mem < 0
    · exact ⟨_, decode_of_neg hneg _ _⟩
    · exact ⟨_, decode_of_illegal_selector (not_lt.mp hneg) (paramCount_eq_none_iff.mpr (h.resolve_left hneg)) _ _⟩
  obtain ⟨r, hd⟩ := hreject
  exact step_eq_next_iff.mpr ⟨_, stepReport_of_decode_error params_memLimit hr hd⟩

/-- Settles O8: the strict decoder rejects such a word. -/
theorem strayDigitsFaultWhenStrict : Obligations.StrayDigitsFaultWhenStrict := by
  unfold Obligations.StrayDigitsFaultWhenStrict
  intro p s n hstrict hp hr hw hn hstray
  refine stepReport_of_decode_error hp hr (r := .strayDigits) ?_
  rw [hstrict]
  exact decode_of_stray hw hn hstray _

/-- Settles O31: a word ending in 99 decodes to HLT, whatever stands above, and a halted machine idles. -/
theorem hltIsTerminal : Obligations.HltIsTerminal := by
  unfold Obligations.HltIsTerminal
  refine ⟨fun s => rfl, fun s hr hw h => ⟨?_, step_of_not_running (running_eq_false_of_halted rfl)⟩⟩
  exact stepRunsTheDecodedInstruction s .hlt (operandCells s) hr (decode_hlt hw h _)

/-! ### What a step that is not done leaves -/

theorem running_eq_true_iff {s : State} : running s = true ↔ s.halted = false ∧ s.fault = none := by
  simp [running, Option.isNone_iff_eq_none]

theorem running_of_ne_idle {p : Params} {s t : State} {r : StepResult} (h : stepReport p s = .stepped r t)
    (hr : r ≠ .idle) : running s = true := by
  by_contra hn
  rw [Bool.not_eq_true] at hn
  cases (stepReport_of_not_running p hn).symm.trans h
  exact hr rfl

theorem stepReport_idle {p : Params} {s t : State} (h : stepReport p s = .stepped .idle t) :
    running s = false ∧ t = s := by
  rcases stepReport_cases p s with ⟨hr, hs⟩ | ⟨_, i, rest, _, hs⟩ | ⟨_, hs⟩ | ⟨_, _, hs⟩ <;> rw [hs] at h
  case inl =>
    cases h
    exact ⟨hr, rfl⟩
  case inr.inl =>
    cases hx : runInstr p i { s with extent := max s.extent (s.pc + 1) } <;> rw [hx] at h <;> cases h
  all_goals cases h

theorem report_eq_faulted_iff {x : Act Unit} {f : FaultKind} {t : State} :
    x.report = .stepped (.faulted f) t ↔ ∃ s, x = .raise f s ∧ t = takeFault f s := by
  constructor
  · intro h
    cases x <;> cases h
    exact ⟨_, rfl, rfl⟩
  · rintro ⟨s, rfl, rfl⟩
    rfl

theorem report_eq_stalled_iff {x : Act Unit} {t : State} : x.report = .stepped .stalled t ↔ x = .stall t := by
  cases x <;> simp [Act.report]

theorem runInstr_raise {p : Params} {i : Instr} {s t : State} {f : FaultKind} (h : runInstr p i s = .raise f t) :
    ∃ e, s.extent ≤ e ∧ t = { s with extent := e } := by
  rcases runInstr_cases p i s with ⟨_, h'⟩ | ⟨_, e, he, h'⟩ | ⟨_, _, h', _⟩ | ⟨_, _, h'⟩ <;> cases h'.symm.trans h
  exact ⟨e, he, rfl⟩

theorem runInstr_stall {p : Params} {i : Instr} {s t : State} (h : runInstr p i s = .stall t) :
    ∃ e, s.extent ≤ e ∧ t = { s with extent := e } := by
  rcases runInstr_cases p i s with ⟨_, h'⟩ | ⟨_, _, _, h'⟩ | ⟨e, he, h', _⟩ | ⟨_, _, h'⟩ <;> cases h'.symm.trans h
  exact ⟨e, he, rfl⟩

theorem stepReport_faulted {p : Params} {s t : State} {f : FaultKind} (h : stepReport p s = .stepped (.faulted f) t) :
    ∃ e, s.extent ≤ e ∧ t = { s with fault := some f, extent := e } := by
  rcases stepReport_cases p s with ⟨_, hs⟩ | ⟨_, i, rest, _, hs⟩ | ⟨_, hs⟩ | ⟨_, _, hs⟩ <;> rw [hs] at h
  case inr.inl =>
    obtain ⟨u, hraise, rfl⟩ := report_eq_faulted_iff.mp h
    obtain ⟨e, he, rfl⟩ := runInstr_raise hraise
    exact ⟨e, le_trans (le_max_left _ _) he, rfl⟩
  case inr.inr.inl =>
    cases h
    exact ⟨_, le_max_left _ _, rfl⟩
  all_goals cases h

theorem stepReport_stalled {p : Params} {s t : State} (h : stepReport p s = .stepped .stalled t) :
    ∃ e, s.extent ≤ e ∧ t = { s with extent := e } := by
  rcases stepReport_cases p s with ⟨_, hs⟩ | ⟨_, i, rest, _, hs⟩ | ⟨_, hs⟩ | ⟨_, _, hs⟩ <;> rw [hs] at h
  case inr.inl =>
    obtain ⟨e, he, rfl⟩ := runInstr_stall (report_eq_stalled_iff.mp h)
    exact ⟨e, le_trans (le_max_left _ _) he, rfl⟩
  all_goals cases h

/-- Settles O44: the faulting step changes the fault status and the extent only; with a fault status the machine
idles. -/
theorem faultsArePrecise : Obligations.FaultsArePrecise := by
  unfold Obligations.FaultsArePrecise
  intro p s t f h
  obtain ⟨e, he, rfl⟩ := stepReport_faulted h
  exact ⟨rfl, he, stepReport_of_not_running p (running_eq_false_iff.mpr (.inr (by simp)))⟩

/-! ### Refusals -/

/-- Only a finite MEM_LIMIT and OVERFLOW_POLICY = wrap can refuse a step. -/
theorem stepReport_stepped {p : Params} (hm : p.memLimit = none) (ho : p.overflowPolicy = .fault) (s : State) :
    ∃ r t, stepReport p s = .stepped r t := by
  rcases stepReport_cases p s with ⟨_, hs⟩ | ⟨_, i, _, _, hs⟩ | ⟨_, hs⟩ | ⟨_, hlimit, _⟩
  case inr.inl =>
    rcases runInstr_cases p i { s with extent := max s.extent (s.pc + 1) } with
      ⟨_, h⟩ | ⟨_, _, _, h⟩ | ⟨_, _, h, _⟩ | ⟨_, hrefuse, _⟩
    case inr.inr.inr => simp [hm, ho] at hrefuse
    all_goals exact ⟨_, _, hs.trans (congrArg Act.report h)⟩
  case inr.inr.inr => exact absurd hm hlimit
  all_goals exact ⟨_, _, hs⟩

/-- Settles O45: under `params` nothing is refused. -/
theorem everyStepHasANextState : Obligations.EveryStepHasANextState := by
  unfold Obligations.EveryStepHasANextState
  intro s
  obtain ⟨r, t, h⟩ := stepReport_stepped params_memLimit params_overflowPolicy s
  exact ⟨t, step_eq_next_iff.mpr ⟨r, h⟩⟩

end Sys2Proof.Machine
end

section
/-! PROOFS. The tape (10_state.md R13, R14; 20_memory.md R35, R36): MemRead and MemWrite, and the cells at and above the
extent. -/

namespace Sys2Proof.Machine

theorem memRead_of_not_inMemory {p : Params} {addr : Int} (h : 0 ≤ addr) (hmem : inMemory p addr.toNat = false)
    (s : State) : memRead p addr s = .refuse .memLimit := by
  simp [memRead, not_lt.mpr h, hmem]

theorem memWrite_of_not_inMemory {p : Params} {addr : Int} (h : 0 ≤ addr) (hmem : inMemory p addr.toNat = false)
    (v : Int) (s : State) : memWrite p addr v s = .refuse .memLimit := by
  simp [memWrite, not_lt.mpr h, hmem]

theorem memWrite_of_inMemory {p : Params} {addr : Int} (h : 0 ≤ addr) (hmem : inMemory p addr.toNat = true) (v : Int)
    (s : State) : memWrite p addr v s = .ok () (setCell addr.toNat v (touch addr.toNat s)) := by
  rw [memWrite, if_neg (not_lt.mpr h), if_pos hmem]

/-- Cells at the extent and above hold 0 (R14). -/
theorem read_of_below {e a : Nat} {m : Memory} (h : Memory.below e m = true) (ha : e ≤ a) : Memory.read a m = 0 := by
  induction m with
  | nil => rfl
  | cons c rest ih =>
    obtain ⟨b, x⟩ := c
    simp only [Memory.below, List.all_cons, Bool.and_eq_true, decide_eq_true_eq] at h
    obtain ⟨hb, hrest⟩ := h
    rw [Memory.read, if_neg (by omega)]
    exact ih hrest

/-- Settles O10: one lemma per case of the address. -/
theorem memReadFollowsItsRule : Obligations.MemReadFollowsItsRule := by
  unfold Obligations.MemReadFollowsItsRule
  intro p addr s
  split_ifs with hneg hmem
  · exact memRead_of_neg hneg p s
  · exact memRead_of_not_inMemory (not_lt.mp hneg) hmem s
  · exact ⟨memRead_of_inMemory (not_lt.mp hneg) (by simpa using hmem) s, read_of_below⟩

/-- Settles O11: one lemma per case of the address; the write into the canonical list is read back. -/
theorem memWriteFollowsItsRule : Obligations.MemWriteFollowsItsRule := by
  unfold Obligations.MemWriteFollowsItsRule
  intro p addr v s hwf
  split_ifs with hneg hmem
  · exact memWrite_of_neg hneg p v s
  · exact memWrite_of_not_inMemory (not_lt.mp hneg) hmem v s
  · exact ⟨Memory.write addr.toNat v s.mem, memWrite_of_inMemory (not_lt.mp hneg) (by simpa using hmem) v s,
      read_write_self hwf _ v, fun b hb => read_write_of_ne hb v s.mem, write_keeps_wf hwf _ v⟩

/-- Settles O57: below the extent the dump lists the cell; above it the cell holds 0. -/
theorem dumpShowsTheTape : Obligations.DumpShowsTheTape := by
  unfold Obligations.DumpShowsTheTape
  rintro p s ⟨_, _, hbelow, _⟩
  refine ⟨by simp [dump], rfl, rfl, rfl, fun a => ?_⟩
  rcases lt_or_ge a s.extent with ha | ha
  · simp [dump, List.getD_eq_getElem?_getD, ha]
  · simp [dump, List.getD_eq_getElem?_getD, not_lt.mpr ha, read_of_below hbelow ha]

/-! ### Loading a Program (R32, R125) -/

theorem read_ofCells (a b : Nat) (vs : List Int) :
    Memory.read a (Memory.ofCells b vs) = if a < b then 0 else vs.getD (a - b) 0 := by
  induction vs generalizing b with
  | nil => simp [Memory.ofCells, Memory.read, unlistedCell]
  | cons v rest ih =>
    have htail : Memory.read a (Memory.ofCells (b + 1) rest) =
        if a < b + 1 then 0 else rest.getD (a - (b + 1)) 0 := ih (b + 1)
    have hread : Memory.read a (Memory.ofCells b (v :: rest)) =
        if a = b then v else Memory.read a (Memory.ofCells (b + 1) rest) := by
      simp only [Memory.ofCells, unlistedCell]
      split_ifs <;> simp_all [Memory.read]
    rw [hread, htail]
    rcases lt_trichotomy a b with h | rfl | h
    · simp [h, h.ne, Nat.lt_succ_of_lt h]
    · simp
    · obtain ⟨d, rfl⟩ := Nat.exists_eq_add_of_lt h
      rw [if_neg (by omega), if_neg (by omega), if_neg (by omega), show b + d + 1 - b = d + 1 by omega,
        show b + d + 1 - (b + 1) = d by omega, List.getD_cons_succ]

theorem mem_ofCells {b : Nat} {vs : List Int} {c : Nat × Int} (h : c ∈ Memory.ofCells b vs) :
    c.1 < b + vs.length ∧ c.2 ∈ vs := by
  induction vs generalizing b with
  | nil => simp [Memory.ofCells] at h
  | cons v rest ih =>
    have hc : c = (b, v) ∨ c ∈ Memory.ofCells (b + 1) rest := by
      simp only [Memory.ofCells] at h
      split_ifs at h
      · exact .inr h
      · exact List.mem_cons.mp h
    rcases hc with rfl | hc
    · simp
    · obtain ⟨hlt, hmem⟩ := ih hc
      exact ⟨by rw [List.length_cons]; omega, List.mem_cons_of_mem _ hmem⟩

/-- Settles O54: the Program's cells are read back from the loaded list. -/
theorem resetLoadsTheProgram : Obligations.ResetLoadsTheProgram := by
  unfold Obligations.ResetLoadsTheProgram
  intro p program padding
  split
  next h =>
    refine ⟨_, resetWith_eq_some_iff.mpr ⟨h, rfl⟩, fun a => ?_, (ofCells_wf 0 program).1, rfl, rfl, rfl, rfl, rfl, rfl,
      rfl, rfl⟩
    exact (read_ofCells a 0 program).trans (by simp)
  next h => exact if_neg h

end Sys2Proof.Machine
end

section
/-! PROOFS. The cell range and the overflow filter under every setting (00_scope.md R5, R6; 40_add_mul.md R69). -/

namespace Sys2Proof.Machine

section
variable {p : Params} {w : Nat} (hw : p.width = some w)
include hw

theorem inCell_iff {v : Int} : inCell p v = true ↔ -(2 : Int) ^ (w - 1) ≤ v ∧ v ≤ (2 : Int) ^ (w - 1) - 1 := by
  simp [inCell, hw, minCell, maxCell]

theorem pcFits_iff {t : Nat} : pcFits p t = true ↔ (t : Int) ≤ (2 : Int) ^ (w - 1) - 1 := by
  have hcast : ((2 ^ (w - 1) : Nat) : Int) = (2 : Int) ^ (w - 1) := by norm_cast
  simp only [pcFits, hw, decide_eq_true_eq]
  omega

end

theorem inCell_of_width_none {p : Params} (hw : p.width = none) (v : Int) : inCell p v = true := by
  simp [inCell, hw]

theorem pcFits_of_width_none {p : Params} (hw : p.width = none) (t : Nat) : pcFits p t = true := by
  simp [pcFits, hw]

/-! ### Wrapping (R6) -/

section
variable {w : Nat} (hw : 1 ≤ w)
include hw

theorem two_pow_eq_double : (2 : Int) ^ w = 2 * (2 : Int) ^ (w - 1) := by
  rw [← pow_succ', Nat.sub_add_cancel hw]

theorem wrapCell_mem_range (r : Int) :
    -(2 : Int) ^ (w - 1) ≤ wrapCell w r ∧ wrapCell w r ≤ (2 : Int) ^ (w - 1) - 1 := by
  have hpos : (0 : Int) < 2 ^ w := by positivity
  have hdouble := two_pow_eq_double hw
  have hlow := Int.emod_nonneg (r + (2 : Int) ^ (w - 1)) hpos.ne'
  have hhigh := Int.emod_lt_of_pos (r + (2 : Int) ^ (w - 1)) hpos
  simp only [wrapCell, minCell, Nat.cast_pow, Nat.cast_ofNat, sub_neg_eq_add]
  constructor <;> linarith

/-- Two values of the range that are congruent modulo 2^W are the same. -/
theorem eq_of_dvd_sub_of_range {u v : Int} (hu : -(2 : Int) ^ (w - 1) ≤ u ∧ u ≤ (2 : Int) ^ (w - 1) - 1)
    (hv : -(2 : Int) ^ (w - 1) ≤ v ∧ v ≤ (2 : Int) ^ (w - 1) - 1) (h : (2 : Int) ^ w ∣ u - v) : u = v := by
  have hlt : |u - v| < (2 : Int) ^ w := by
    rw [two_pow_eq_double hw, abs_lt]
    constructor <;> linarith [hu.1, hu.2, hv.1, hv.2]
  exact sub_eq_zero.mp (Int.eq_zero_of_abs_lt_dvd h hlt)

end

theorem dvd_wrapCell_sub (w : Nat) (r : Int) : (2 : Int) ^ w ∣ wrapCell w r - r := by
  have hsub : wrapCell w r - r = (r - minCell w) % (2 : Int) ^ w - (r - minCell w) := by
    simp only [wrapCell, Nat.cast_pow, Nat.cast_ofNat]
    ring
  rw [hsub]
  exact Int.dvd_emod_sub_self

theorem overflowFilter_wrap {p : Params} {w : Nat} {r : Int} (hw : p.width = some w) (hp : p.overflowPolicy = .wrap)
    (h : inCell p r = false) (s : State) : overflowFilter p r s = .ok (wrapCell w r) s := by
  simp [overflowFilter, h, hp, hw]

/-- Settles O32: the three lemmas of the filter, in range, raising and wrapping; the wrapped value is the only one of the
range in its residue class. -/
theorem overflowFilterFollowsPolicy : Obligations.OverflowFilterFollowsPolicy := by
  unfold Obligations.OverflowFilterFollowsPolicy
  intro p r s
  refine ⟨fun hnone => ⟨inCell_of_width_none hnone r, pcFits_of_width_none hnone,
    overflowFilter_ok (inCell_of_width_none hnone r) s⟩, fun w hw hpos => ?_⟩
  have hfalse (h : ¬ (-(2 : Int) ^ (w - 1) ≤ r ∧ r ≤ (2 : Int) ^ (w - 1) - 1)) : inCell p r = false :=
    Bool.eq_false_iff.mpr fun hc => h ((inCell_iff hw).mp hc)
  refine ⟨inCell_iff hw, fun t => pcFits_iff hw, fun h => overflowFilter_ok ((inCell_iff hw).mpr h) s,
    fun h hp => overflowFilter_raise hp (hfalse h) s, fun h hp => ⟨wrapCell w r, overflowFilter_wrap hw hp (hfalse h) s,
      wrapCell_mem_range hpos r, dvd_wrapCell_sub w r, fun u hu hdvd => ?_⟩⟩
  refine eq_of_dvd_sub_of_range hpos hu (wrapCell_mem_range hpos r) ?_
  have := dvd_sub hdvd (dvd_wrapCell_sub w r)
  rwa [sub_sub_sub_cancel_right] at this

/-- What passes the filter is a cell value, where there is a bit to wrap to. -/
theorem inCell_of_overflowFilter_ok {p : Params} (hp : paramsOk p) {x r : Int} {u t : State}
    (h : overflowFilter p x u = .ok r t) : inCell p r = true := by
  rcases overflowFilter_cases p x u with ⟨hx, hf⟩ | ⟨_, _, hf⟩ | ⟨w, _, _, hw, hf⟩ <;> cases hf.symm.trans h
  · exact hx
  · have h2 : 2 ≤ w := by simpa only [paramsOk, hw] using hp
    exact (inCell_iff hw).mpr (wrapCell_mem_range (by omega) x)

/-- The results of LT and EQ are cell values. -/
theorem inCell_cellOfBool {p : Params} (hp : paramsOk p) (b : Bool) : inCell p (cellOfBool b) = true := by
  cases b with
  | false => exact inCell_zero p
  | true =>
    cases hw : p.width with
    | none => exact inCell_of_width_none hw 1
    | some w =>
      have h2 : 2 ≤ w := by simpa only [paramsOk, hw] using hp
      have hpow : (2 : Int) ^ 1 ≤ 2 ^ (w - 1) := pow_le_pow_right₀ (by decide) (by omega)
      refine (inCell_iff hw).mpr ?_
      simp only [cellOfBool, if_true]
      omega

end Sys2Proof.Machine
end

section
/-! PROOFS. What an instruction that is done has done, said once for all shapes, and the invariant of the state
(10_state.md R13 to R21) from it. -/

namespace Sys2Proof.Machine

/-- The states an instruction can be done in, by its shape: what it has changed, and what let it. -/
inductive Done (p : Params) (s : State) : Instr → State → Prop
  | store {i : Instr} {a b dst : Operand} {r : Int} {e : Nat} (form : i ∈ storeForms a b dst) (grown : s.extent ≤ e)
      (covered : (operandAddress s.rb dst).toNat < e) (target : addressable s dst = true)
      (fits : pcFits p (s.pc + 4) = true) (result : paramsOk p → inCell p r = true) :
      Done p s i
        { s with mem := Memory.write (operandAddress s.rb dst).toNat r s.mem, extent := e, pc := s.pc + 4 }
  | input {dst : Operand} {x : Int} {rest : List Int} {e : Nat} (waiting : s.inq = x :: rest) (grown : s.extent ≤ e)
      (covered : (operandAddress s.rb dst).toNat < e) (target : addressable s dst = true)
      (fits : pcFits p (s.pc + 2) = true) :
      Done p s (.input dst)
        { s with mem := Memory.write (operandAddress s.rb dst).toNat x s.mem, extent := e, inq := rest, pc := s.pc + 2 }
  | output {a : Operand} {e : Nat} (grown : s.extent ≤ e) (room : queueFull p.outDepth s.outq = false)
      (fits : pcFits p (s.pc + 2) = true) :
      Done p s (.output a) { s with extent := e, outq := s.outq ++ [readValue s a], pc := s.pc + 2 }
  | jump {i : Instr} {a target : Operand} {t e : Nat} (form : i ∈ jumpForms a target) (grown : s.extent ≤ e)
      (fits : pcFits p t = true) : Done p s i { s with extent := e, pc := t }
  | arb {a : Operand} {r : Int} {e : Nat} (grown : s.extent ≤ e) (fits : pcFits p (s.pc + 2) = true)
      (result : paramsOk p → inCell p r = true) : Done p s (.arb a) { s with extent := e, rb := r, pc := s.pc + 2 }
  | hlt : Done p s .hlt (setHalted s)

section
variable {p : Params} {s t : State}

theorem done_of_runStore_ok {compute : Int → Int → State → Act Int} {i : Instr} {a b dst : Operand}
    (hc : ∀ x y u, (∃ r, compute x y u = .ok r u) ∨ (∃ f, compute x y u = .raise f u))
    (hcell : ∀ {x y u r}, paramsOk p → compute x y u = .ok r u → inCell p r = true) (hi : i ∈ storeForms a b dst)
    (h : runStore p compute a b dst s = .ok () t) : Done p s i t := by
  rcases runStore_cases p a b dst s hc with
    ⟨r, e, u, grown, covered, target, fits, hr, h'⟩ | ⟨_, _, _, h'⟩ | ⟨_, _, h'⟩ <;> cases h'.symm.trans h
  exact .store hi grown covered target fits fun hp => hcell hp hr

theorem done_of_runJump_ok {taken : Int → Bool} {i : Instr} {a target : Operand} (hi : i ∈ jumpForms a target)
    (h : runJump p taken a target s = .ok () t) : Done p s i t := by
  rcases runJump_cases p taken a target s with ⟨_, _, grown, fits, _, _, h'⟩ | ⟨_, _, _, h'⟩ | ⟨_, _, h'⟩ <;>
    cases h'.symm.trans h
  exact .jump hi grown fits

theorem done_of_runInput_ok {dst : Operand} (h : runInput p dst s = .ok () t) : Done p s (.input dst) t := by
  rcases runInput_cases p dst s with
    ⟨_, _, _, waiting, grown, covered, target, fits, h'⟩ | ⟨_, _, _, h'⟩ | ⟨_, _, _, _, _, h'⟩ | ⟨_, _, h'⟩ <;>
    cases h'.symm.trans h
  exact .input waiting grown covered target fits

theorem done_of_runOutput_ok {a : Operand} (h : runOutput p a s = .ok () t) : Done p s (.output a) t := by
  rcases runOutput_cases p a s with ⟨_, grown, _, room, fits, h'⟩ | ⟨_, _, _, h'⟩ | ⟨_, _, _, h'⟩ | ⟨_, _, h'⟩ <;>
    cases h'.symm.trans h
  exact .output grown room fits

theorem done_of_runArb_ok {a : Operand} (h : runArb p a s = .ok () t) : Done p s (.arb a) t := by
  rcases runArb_cases p a s with ⟨_, _, _, grown, fits, hr, h'⟩ | ⟨_, _, _, h'⟩ | ⟨_, _, h'⟩ <;>
    cases h'.symm.trans h
  exact .arb grown fits fun hp => inCell_of_overflowFilter_ok hp hr

theorem done_of_runInstr_ok {i : Instr} (h : runInstr p i s = .ok () t) : Done p s i t := by
  have hfilter {x : Int} {u : State} {r : Int} (hp : paramsOk p) (hr : overflowFilter p x u = .ok r u) :
      inCell p r = true := inCell_of_overflowFilter_ok hp hr
  cases i with
  | add a b dst => exact done_of_runStore_ok (overflowFilter_pure p fun x y => x + y) hfilter (by simp) h
  | mul a b dst => exact done_of_runStore_ok (overflowFilter_pure p fun x y => x * y) hfilter (by simp) h
  | lt a b dst =>
    refine done_of_runStore_ok (fun _ _ _ => .inl ⟨_, rfl⟩) (fun hp hr => ?_) (by simp) h
    cases hr
    exact inCell_cellOfBool hp _
  | eq a b dst =>
    refine done_of_runStore_ok (fun _ _ _ => .inl ⟨_, rfl⟩) (fun hp hr => ?_) (by simp) h
    cases hr
    exact inCell_cellOfBool hp _
  | input dst => exact done_of_runInput_ok h
  | output a => exact done_of_runOutput_ok h
  | jnz a target => exact done_of_runJump_ok (by simp) h
  | jz a target => exact done_of_runJump_ok (by simp) h
  | arb a => exact done_of_runArb_ok h
  | hlt => cases h; exact .hlt

end

/-! ### The invariant -/

section
variable {p : Params} {s t : State}

theorem below_mono {e e' : Nat} {m : Memory} (h : Memory.below e m = true) (he : e ≤ e') :
    Memory.below e' m = true := by
  simp only [Memory.below, List.all_eq_true, decide_eq_true_eq] at h ⊢
  exact fun c hc => lt_of_lt_of_le (h c hc) he

/-- A larger extent keeps the invariant: the cells it adds hold 0. -/
theorem ok_of_extent_le {e : Nat} (he : s.extent ≤ e) (h : State.Ok p s) : State.Ok p { s with extent := e } := by
  obtain ⟨hwf, hrange, hbelow, hrest⟩ := h
  exact ⟨hwf, hrange, below_mono hbelow he, hrest⟩

/-- A fault keeps the invariant of a state that has not halted. -/
theorem ok_of_fault {f : FaultKind} (hh : s.halted = false) (h : State.Ok p s) :
    State.Ok p { s with fault := some f } := by
  obtain ⟨hwf, hrange, hbelow, hpc, hrb, hin, hout, hinFits, houtFits, _⟩ := h
  refine ⟨hwf, hrange, hbelow, hpc, hrb, hin, hout, hinFits, houtFits, fun hhalted => ?_⟩
  cases hh.symm.trans hhalted

/-- A value read with a raw operand in range is in range. -/
theorem readValue_inCell {o : Operand} (hrange : Memory.inRange p s.mem = true) (ho : inCell p o.raw = true) :
    inCell p (readValue s o) = true := by
  unfold readValue
  split
  · exact ho
  · exact read_inCell hrange (inCell_zero p) _

/-- A queue that is not full takes one more value. -/
theorem queueFits_push {depth : Option Nat} {q : List Int} {v : Int} (hfits : queueFits depth q = true)
    (hroom : queueFull depth q = false) : queueFits depth (q ++ [v]) = true := by
  cases depth with
  | none => rfl
  | some d =>
    simp only [queueFits, queueFull, decide_eq_true_eq, decide_eq_false_iff_not, List.length_append,
      List.length_singleton] at *
    omega

theorem queueFits_pop {depth : Option Nat} {x : Int} {q : List Int} (h : queueFits depth (x :: q) = true) :
    queueFits depth q = true := by
  cases depth with
  | none => rfl
  | some d =>
    simp only [queueFits, decide_eq_true_eq, List.length_cons] at *
    omega

theorem done_keeps_ok {i : Instr} (hp : paramsOk p) (hok : State.Ok p s) (hfault : s.fault = none)
    (hraw : ∀ o ∈ i.operands, inCell p o.raw = true) (h : Done p s i t) : State.Ok p t := by
  obtain ⟨hwf, hrange, hbelow, hpc, hrb, hin, hout, hinFits, houtFits, hstop⟩ := hok
  cases h with
  | store form grown covered target fits result =>
    exact ⟨write_keeps_wf hwf _ _, write_keeps_inRange hrange _ (result hp), write_keeps_below hbelow grown covered _,
      fits, hrb, hin, hout, hinFits, houtFits, hstop⟩
  | input waiting grown covered target fits =>
    rw [waiting] at hin hinFits
    rw [List.all_cons, Bool.and_eq_true] at hin
    exact ⟨write_keeps_wf hwf _ _, write_keeps_inRange hrange _ hin.1, write_keeps_below hbelow grown covered _, fits,
      hrb, hin.2, hout, queueFits_pop hinFits, houtFits, hstop⟩
  | @output a e grown room fits =>
    have hv : inCell p (readValue s a) = true := readValue_inCell hrange (hraw a (by simp [Instr.operands]))
    exact ⟨hwf, hrange, below_mono hbelow grown, fits, hrb, hin, by simp [hout, hv], hinFits,
      queueFits_push houtFits room, hstop⟩
  | jump form grown fits =>
    exact ⟨hwf, hrange, below_mono hbelow grown, fits, hrb, hin, hout, hinFits, houtFits, hstop⟩
  | arb grown fits result =>
    exact ⟨hwf, hrange, below_mono hbelow grown, fits, result hp, hin, hout, hinFits, houtFits, hstop⟩
  | hlt => exact ⟨hwf, hrange, hbelow, hpc, hrb, hin, hout, hinFits, houtFits, fun _ => hfault⟩

/-- The raw operands of the instruction at `pc` are cells of memory, and so in range. -/
theorem raw_inCell_of_decode {strict : Bool} {i : Instr} {rest : List Int} (hrange : Memory.inRange p s.mem = true)
    (h : decode strict (nextCells s) = .ok (i, rest)) : ∀ o ∈ i.operands, inCell p o.raw = true := by
  intro o ho
  obtain ⟨_, _, hbuild⟩ := decode_cons_eq_ok_iff.mp h
  obtain ⟨_, hcells, _⟩ := buildInstr_eq_ok_iff.mp hbuild
  have hmem : o.raw ∈ operandCells s := by
    rw [hcells]
    exact List.mem_append_left _ (List.mem_map_of_mem ho)
  have hread (a : Nat) : inCell p (Memory.read a s.mem) = true := read_inCell hrange (inCell_zero p) a
  simp only [operandCells, List.mem_cons, List.not_mem_nil, or_false] at hmem
  rcases hmem with h | h | h <;> rw [h] <;> exact hread _

end

/-- Settles O47: an idle step changes nothing, a stall the extent, a fault enters a state that has not halted, and an
instruction that is done keeps the invariant by `done_keeps_ok`. -/
theorem invariantKeptUnderEverySetting : Obligations.InvariantKeptUnderEverySetting := by
  unfold Obligations.InvariantKeptUnderEverySetting
  intro p s t r hp hok h
  cases r with
  | idle =>
    obtain ⟨_, rfl⟩ := stepReport_idle h
    exact hok
  | stalled =>
    obtain ⟨e, he, rfl⟩ := stepReport_stalled h
    exact ok_of_extent_le he hok
  | faulted f =>
    obtain ⟨e, he, rfl⟩ := stepReport_faulted h
    obtain ⟨hhalted, _⟩ := running_eq_true_iff.mp (running_of_ne_idle h (by simp))
    exact ok_of_fault (s := { s with extent := e }) hhalted (ok_of_extent_le he hok)
  | done =>
    obtain ⟨_, hfault⟩ := running_eq_true_iff.mp (running_of_ne_idle h (by simp))
    obtain ⟨i, rest, hdecode, hrun⟩ := runInstr_ok_of_stepReport_done h
    have ⟨_, hrange, _⟩ := hok
    exact done_keeps_ok hp (ok_of_extent_le (le_max_left _ _) hok) hfault
      (raw_inCell_of_decode hrange hdecode) (done_of_runInstr_ok hrun)

/-- Settles O46: the case of `params`. -/
theorem invariantKeptByEveryStep : Obligations.InvariantKeptByEveryStep := by
  unfold Obligations.InvariantKeptByEveryStep
  intro s t hok h
  obtain ⟨r, hr⟩ := step_eq_next_iff.mp h
  exact invariantKeptUnderEverySetting params s t r (show 2 ≤ 64 by decide) hok hr

/-! ### The relative base -/

theorem rb_of_done {p : Params} {s t : State} {i : Instr} (h : Done p s i t) : t.rb = s.rb ∨ ∃ a, i = .arb a := by
  cases h with
  | @arb a => exact .inr ⟨a, rfl⟩
  | _ => exact .inl rfl

/-- Settles O49: a step that is not done leaves `rb`, and so does every instruction but ARB that is. -/
theorem onlyArbChangesRb : Obligations.OnlyArbChangesRb := by
  unfold Obligations.OnlyArbChangesRb
  intro s t h hne
  obtain ⟨r, hr⟩ := step_eq_next_iff.mp h
  cases r with
  | idle => exact absurd (congrArg State.rb (stepReport_idle hr).2) hne
  | stalled =>
    obtain ⟨e, _, rfl⟩ := stepReport_stalled hr
    exact absurd rfl hne
  | faulted f =>
    obtain ⟨e, _, rfl⟩ := stepReport_faulted hr
    exact absurd rfl hne
  | done =>
    obtain ⟨i, rest, hdecode, hrun⟩ := runInstr_ok_of_stepReport_done hr
    obtain ⟨a, rfl⟩ := (rb_of_done (done_of_runInstr_ok hrun)).resolve_left hne
    exact ⟨a, rest, hdecode⟩

end Sys2Proof.Machine
end

section
/-! PROOFS. The frames of the instructions (45_engine.md section 2): what each shape leaves unchanged, from the states it can
be done in, and from what a fault and a stall leave. -/

namespace Sys2Proof.Machine

/-- Everything the meaning of an instruction can answer. -/
theorem exec_next_cases {i : Instr} {s t : State} (h : exec i s = .next t) :
    Done params s i t ∨ (∃ f e, s.extent ≤ e ∧ t = { s with fault := some f, extent := e }) ∨
      ∃ e, s.extent ≤ e ∧ t = { s with extent := e } := by
  rw [exec_eq_runInstr] at h
  cases hrun : runInstr params i s <;> rw [hrun] at h <;> cases h
  case ok => exact .inl (done_of_runInstr_ok hrun)
  case raise f u =>
    obtain ⟨e, he, rfl⟩ := runInstr_raise hrun
    exact .inr (.inl ⟨f, e, he, rfl⟩)
  case stall => exact .inr (.inr (runInstr_stall hrun))

theorem not_mem_jumpForms_of_store {i : Instr} {a b dst a' target : Operand} (h : i ∈ storeForms a b dst) :
    i ∉ jumpForms a' target := by
  fin_cases h <;> simp

theorem dst_eq_of_store {i : Instr} {a b dst a' b' dst' : Operand} (h : i ∈ storeForms a b dst)
    (h' : i ∈ storeForms a' b' dst') : dst' = dst := by
  fin_cases h <;> simp at h' <;> exact h'.2.2.symm

/-- An operation of the `rra` shape that is done has written one cell and moved `pc`. -/
theorem done_store {p : Params} {i : Instr} {a b dst : Operand} {s t : State} (hi : i ∈ storeForms a b dst)
    (h : Done p s i t) : ∃ r e, s.extent ≤ e ∧ 0 ≤ operandAddress s.rb dst ∧
      t = { s with mem := Memory.write (operandAddress s.rb dst).toNat r s.mem, extent := e, pc := s.pc + 4 } := by
  cases h with
  | store form grown covered target fits result =>
    cases dst_eq_of_store hi form
    exact ⟨_, _, grown, operandAddress_nonneg target, rfl⟩
  | jump form grown fits => exact absurd form (not_mem_jumpForms_of_store hi)
  | _ => simp at hi

/-- A write leaves the cells whose address is not the one written. -/
theorem read_write_of_address_ne {x : Nat} {addr : Int} (hnonneg : 0 ≤ addr) (hx : (x : Int) ≠ addr) (v : Int)
    (m : Memory) : Memory.read x (Memory.write addr.toNat v m) = Memory.read x m :=
  read_write_of_ne (by omega) v m

/-- Settles O36: the three ways these instructions can end. -/
theorem storeInstructionsFrame : Obligations.StoreInstructionsFrame := by
  unfold Obligations.StoreInstructionsFrame
  intro s t a b dst i hi h
  rcases exec_next_cases h with hdone | ⟨f, e, he, rfl⟩ | ⟨e, he, rfl⟩
  · obtain ⟨r, e, he, hnonneg, rfl⟩ := done_store hi hdone
    exact ⟨rfl, rfl, rfl, rfl, rfl, he, fun x hx => read_write_of_address_ne hnonneg hx r s.mem, .inl rfl⟩
  · exact ⟨rfl, rfl, rfl, rfl, rfl, he, fun _ _ => rfl, .inr ⟨rfl, rfl⟩⟩
  · exact ⟨rfl, rfl, rfl, rfl, rfl, he, fun _ _ => rfl, .inl rfl⟩

/-- Settles O37: the three ways IN can end. -/
theorem inputFrame : Obligations.InputFrame := by
  unfold Obligations.InputFrame
  intro s t dst h
  rcases exec_next_cases h with hdone | ⟨f, e, he, rfl⟩ | ⟨e, he, rfl⟩
  · cases hdone with
    | @input _ v rest e waiting grown covered target fits =>
      exact ⟨rfl, rfl, rfl, rfl, grown,
        fun x hx => read_write_of_address_ne (operandAddress_nonneg target) hx v s.mem, .inr ⟨v, waiting⟩, .inl rfl⟩
    | store form => simp at form
    | jump form => simp at form
  · exact ⟨rfl, rfl, rfl, rfl, he, fun _ _ => rfl, .inl rfl, .inr ⟨rfl, rfl, rfl⟩⟩
  · exact ⟨rfl, rfl, rfl, rfl, he, fun _ _ => rfl, .inl rfl, .inl rfl⟩

/-- Settles O38: of the states these instructions can be done in, only the one of OUT has another `outq`, only the one of
ARB another `rb` and only the one of HLT another `halted`. -/
theorem nonStoringFrame : Obligations.NonStoringFrame := by
  unfold Obligations.NonStoringFrame
  intro s t a target i hi h
  rcases exec_next_cases h with hdone | ⟨f, e, he, rfl⟩ | ⟨e, he, rfl⟩
  · cases hdone with
    | store form => fin_cases hi <;> simp at form
    | input => simp at hi
    | output grown =>
      obtain rfl : _ = a := by simpa using hi
      exact ⟨fun _ => rfl, rfl, rfl, grown, .inl rfl, .inr rfl, .inr rfl, by simp, .inl rfl⟩
    | jump form grown =>
      exact ⟨fun _ => rfl, rfl, rfl, grown, .inr rfl, .inr rfl, .inr rfl, by rintro rfl; simp at form, .inl rfl⟩
    | arb grown =>
      obtain rfl : _ = a := by simpa using hi
      exact ⟨fun _ => rfl, rfl, rfl, grown, .inr rfl, .inl rfl, .inr rfl, by simp, .inl rfl⟩
    | hlt => exact ⟨fun _ => rfl, rfl, rfl, le_refl _, .inr rfl, .inr rfl, .inl rfl, fun _ => rfl, .inl rfl⟩
  · exact ⟨fun _ => rfl, rfl, rfl, he, .inr rfl, .inr rfl, .inr rfl, fun _ => rfl, .inr ⟨rfl, rfl, rfl, rfl⟩⟩
  · exact ⟨fun _ => rfl, rfl, rfl, he, .inr rfl, .inr rfl, .inr rfl, fun _ => rfl, .inl rfl⟩

end Sys2Proof.Machine
end

section
/-! PROOFS. Where each instruction completes, and in which state (40_add_mul.md to 44_relbase_halt.md): one equation per
shape for parameters that resolve, up to the update of `pc`; what follows is a filter or a check that passes or does not. -/

namespace Sys2Proof.Machine

/-! ### The shapes with their parameters resolved -/

/-- The state after the cells are accessed (R14). -/
def accessed (s : State) (cells : List Nat) : State := { s with extent := extentOver s.extent cells }

theorem accessed_append (s : State) (xs ys : List Nat) : accessed s (xs ++ ys) = accessed (accessed s xs) ys := by
  simp only [accessed, extentOver_append]

/-- IN with its destination resolved and no value waiting starves or stalls (R72). -/
theorem runInput_of_empty {p : Params} {dst : Operand} {s u : State} {d : Int}
    (hd : operand p 1 .address dst s = .ok d u) (hq : u.inq = []) :
    runInput p dst s = if u.inClosed then .raise .inputStarvationFault u else .stall u := by
  rw [runInput, hd, bind_ok]
  simp only [hq]

section
variable {p : Params} (hp : p.memLimit = none) {s : State} {a b dst target : Operand}
include hp

theorem runStore_of_readable {compute : Int → Int → State → Act Int} (ha : readable s a = true)
    (hb : readable s b = true) :
    runStore p compute a b dst s =
      (operand p 3 .address dst (accessed s (readCells s 1 a ++ readCells s 2 b))).bind fun d s3 =>
      (compute (readValue s a) (readValue s b) s3).bind fun r s4 =>
      (memWrite p d r s4).bind fun _ s5 => finish p (s4.pc + 4) s4 s5 := by
  rw [runStore, operand_read_ok hp 1 ha, bind_ok, operand_read_at hp 2 _ hb, bind_ok, accessed, extentOver_append]

theorem runStore_of_resolved {compute : Int → Int → State → Act Int} (ha : readable s a = true)
    (hb : readable s b = true) (hd : addressable s dst = true) :
    runStore p compute a b dst s =
      (compute (readValue s a) (readValue s b) (accessed s (storeReads s a b))).bind fun r s4 =>
      (memWrite p (operandAddress s.rb dst) r s4).bind fun _ s5 => finish p (s4.pc + 4) s4 s5 := by
  rw [runStore_of_readable hp ha hb, accessed, operand_address_at hp 3 _ hd, bind_ok, storeReads, accessed,
    extentOver_append _ (_ ++ _)]

theorem runStore_of_compute_ok {compute : Int → Int → State → Act Int} {r : Int} (ha : readable s a = true)
    (hb : readable s b = true) (hd : addressable s dst = true)
    (hr : compute (readValue s a) (readValue s b) (accessed s (storeReads s a b)) =
      .ok r (accessed s (storeReads s a b))) :
    runStore p compute a b dst s = finish p (s.pc + 4) (accessed s (storeReads s a b))
      (setCell (operandAddress s.rb dst).toNat r
        (touch (operandAddress s.rb dst).toNat (accessed s (storeReads s a b)))) := by
  rw [runStore_of_resolved hp ha hb hd, hr, bind_ok, memWrite_ok hp (operandAddress_nonneg hd), bind_ok]
  rfl

theorem runStore_of_compute_raise {compute : Int → Int → State → Act Int} {f : FaultKind} (ha : readable s a = true)
    (hb : readable s b = true) (hd : addressable s dst = true)
    (hr : compute (readValue s a) (readValue s b) (accessed s (storeReads s a b)) =
      .raise f (accessed s (storeReads s a b))) :
    runStore p compute a b dst s = .raise f (accessed s (storeReads s a b)) := by
  rw [runStore_of_resolved hp ha hb hd, hr, bind_raise]

theorem runArb_of_readable (ha : readable s a = true) :
    runArb p a s = (overflowFilter p (s.rb + readValue s a) (accessed s (readCells s 1 a))).bind fun r s2 =>
      finish p (s2.pc + 2) s2 (setRb r s2) := by
  rw [runArb, operand_read_ok hp 1 ha, bind_ok]
  rfl

theorem runOutput_of_readable (ha : readable s a = true) :
    runOutput p a s =
      if queueFull p.outDepth s.outq then .stall (accessed s (readCells s 1 a))
      else finish p (s.pc + 2) (accessed s (readCells s 1 a))
        (setOutq (s.outq ++ [readValue s a]) (accessed s (readCells s 1 a))) := by
  rw [runOutput, operand_read_ok hp 1 ha, bind_ok]
  rfl

theorem runInput_of_nil (hd : addressable s dst = true) (hq : s.inq = []) :
    runInput p dst s =
      if s.inClosed then .raise .inputStarvationFault (accessed s [s.pc + 1]) else .stall (accessed s [s.pc + 1]) :=
  runInput_of_empty (operand_address_ok hp 1 hd) hq

theorem runInput_of_cons {x : Int} {rest : List Int} (hd : addressable s dst = true) (hq : s.inq = x :: rest) :
    runInput p dst s = finish p (s.pc + 2) (accessed s [s.pc + 1])
      (setCell (operandAddress s.rb dst).toNat x
        (touch (operandAddress s.rb dst).toNat (setInq rest (accessed s [s.pc + 1])))) := by
  rw [runInput, operand_address_ok hp 1 hd, bind_ok]
  simp only [hq]
  rw [memWrite_ok hp (operandAddress_nonneg hd), bind_ok, accessed, hq]

theorem runJump_of_readable {taken : Int → Bool} (ha : readable s a = true) :
    runJump p taken a target s =
      (operand p 2 (targetKind p) target (accessed s (readCells s 1 a))).bind fun t s2 =>
      if taken (readValue s a) then (if t < 0 then .raise .addressFault s2 else finish p t.toNat s2 s2)
      else finish p (s2.pc + 3) s2 s2 := by
  rw [runJump, operand_read_ok hp 1 ha, bind_ok]
  rfl

/-- Under JUMP_TARGET_KIND = address the target is the address itself (R75). -/
theorem runJump_of_address {taken : Int → Prop} [DecidablePred taken] (hk : p.jumpTargetKind = .address)
    (ha : readable s a = true) (ht : addressable s target = true) :
    runJump p (fun x => decide (taken x)) a target s =
      finish p (if taken (readValue s a) then (operandAddress s.rb target).toNat else s.pc + 3)
        (accessed s (readCells s 1 a ++ [s.pc + 2])) (accessed s (readCells s 1 a ++ [s.pc + 2])) := by
  rw [runJump_of_readable hp ha, targetKind, hk, accessed, operand_address_at hp 2 _ ht, bind_ok, ← extentOver_append]
  simp only [if_neg (not_lt.mpr (operandAddress_nonneg ht)), decide_eq_true_eq, accessed]
  split_ifs <;> rfl

/-- Under JUMP_TARGET_KIND = value the target is read, and can be negative (R78). -/
theorem runJump_of_value {taken : Int → Prop} [DecidablePred taken] (hk : p.jumpTargetKind = .value)
    (ha : readable s a = true) (ht : readable s target = true) :
    runJump p (fun x => decide (taken x)) a target s =
      if taken (readValue s a) ∧ readValue s target < 0 then
        .raise .addressFault (accessed s (readCells s 1 a ++ readCells s 2 target))
      else finish p (if taken (readValue s a) then (readValue s target).toNat else s.pc + 3)
        (accessed s (readCells s 1 a ++ readCells s 2 target))
        (accessed s (readCells s 1 a ++ readCells s 2 target)) := by
  rw [runJump_of_readable hp ha, targetKind, hk, accessed, operand_read_at hp 2 _ ht, bind_ok, ← extentOver_append]
  simp only [decide_eq_true_eq, accessed]
  split_ifs <;> simp_all

end

/-! ### Completing -/

/-- An operation of the `rra` shape whose result is `r` stores it. -/
theorem runStore_completes {compute : Int → Int → State → Act Int} {s : State} {a b dst : Operand} {r : Int}
    (h : storeReady s a b dst)
    (hr : ∀ u, compute (readValue s a) (readValue s b) u = .ok r u) :
    (runStore params compute a b dst s).outcome = .next (afterStore s a b dst r) := by
  obtain ⟨ha, hb, hd, hpc⟩ := h
  rw [runStore_of_compute_ok params_memLimit ha hb hd (hr _), finish_ok hpc, outcome_ok, afterStore, extentOver_append]
  rfl

/-- Settles O19: the sum passes the filter. -/
theorem addStoresTheSum : Obligations.AddStoresTheSum := by
  unfold Obligations.AddStoresTheSum
  exact fun s a b dst h hr => runStore_completes h (overflowFilter_ok hr)

/-- Settles O20: the product passes the filter. -/
theorem mulStoresTheProduct : Obligations.MulStoresTheProduct := by
  unfold Obligations.MulStoresTheProduct
  exact fun s a b dst h hr => runStore_completes h (overflowFilter_ok hr)

theorem lessThan_eq_ite (x y : Int) : lessThan x y = if x < y then 1 else 0 := by
  simp [lessThan, cellOfBool]

theorem equals_eq_ite (x y : Int) : equals x y = if x = y then 1 else 0 := by
  simp [equals, cellOfBool]

/-- Settles O21: a comparison has no filter to pass. -/
theorem ltStoresTheComparison : Obligations.LtStoresTheComparison := by
  unfold Obligations.LtStoresTheComparison
  intro s a b dst h
  rw [← lessThan_eq_ite]
  exact runStore_completes h fun u => rfl

/-- Settles O22: a comparison has no filter to pass. -/
theorem eqStoresTheComparison : Obligations.EqStoresTheComparison := by
  unfold Obligations.EqStoresTheComparison
  intro s a b dst h
  rw [← equals_eq_ite]
  exact runStore_completes h fun u => rfl

/-- Settles O23: with a value waiting, IN ends in `finish`. -/
theorem inputPopsTheOldestValue : Obligations.InputPopsTheOldestValue := by
  unfold Obligations.InputPopsTheOldestValue
  intro s dst x rest hd hq hpc
  rw [exec_eq_runInstr, runInstr, runInput_of_cons params_memLimit hd hq, finish_ok hpc, outcome_ok]
  rfl

/-- Settles O24: the two ends of `runInput_of_nil`. -/
theorem inputOnEmptyQueue : Obligations.InputOnEmptyQueue := by
  unfold Obligations.InputOnEmptyQueue
  intro s dst hd hq
  rw [exec_eq_runInstr, runInstr, runInput_of_nil params_memLimit hd hq]
  exact ⟨fun hc => by rw [if_neg (by simp [hc])]; rfl, fun hc => by rw [if_pos hc]; rfl⟩

/-- Settles O25: a queue of infinite depth is never full. -/
theorem outputPushesAtTheBack : Obligations.OutputPushesAtTheBack := by
  unfold Obligations.OutputPushesAtTheBack
  intro s a ha hpc
  rw [exec_eq_runInstr, runInstr, runOutput_of_readable params_memLimit ha, if_neg (by simp), finish_ok hpc, outcome_ok]
  rfl

/-- Settles O26: the queue is full. -/
theorem outputStallsOnFullQueue : Obligations.OutputStallsOnFullQueue := by
  unfold Obligations.OutputStallsOnFullQueue
  intro p s a d hp hdepth ha hlen
  rw [runInstr, runOutput_of_readable hp ha, if_pos (by simp [queueFull, hdepth, hlen])]
  rfl

/-- Settles O27: JNZ ends in `finish`, with the target or the next address. -/
theorem jnzSetsThePc : Obligations.JnzSetsThePc := by
  unfold Obligations.JnzSetsThePc
  intro s a target ha ht hpc
  rw [exec_eq_runInstr, runInstr, runJnz, runJump_of_address params_memLimit params_jumpTargetKind ha ht, finish_ok hpc,
    outcome_ok]
  rfl

/-- Settles O28: JZ ends in `finish`, with the target or the next address. -/
theorem jzSetsThePc : Obligations.JzSetsThePc := by
  unfold Obligations.JzSetsThePc
  intro s a target ha ht hpc
  rw [exec_eq_runInstr, runInstr, runJz, runJump_of_address params_memLimit params_jumpTargetKind ha ht, finish_ok hpc,
    outcome_ok]
  rfl

/-- Settles O29: a taken jump with a negative target faults, any other sets `pc`. -/
theorem jumpTargetValueVariant : Obligations.JumpTargetValueVariant := by
  unfold Obligations.JumpTargetValueVariant
  intro p s a target hk hp ha ht htarget hnext
  simp only [runInstr, runJnz, runJz, runJump_of_value hp hk ha ht]
  constructor <;> split_ifs <;> simp_all [finish_ok, accessed, setPc]

/-- Settles O30: the sum passes the filter. -/
theorem arbAddsToRb : Obligations.ArbAddsToRb := by
  unfold Obligations.ArbAddsToRb
  intro s a ha hr hpc
  rw [exec_eq_runInstr, runInstr, runArb_of_readable params_memLimit ha, overflowFilter_ok hr, bind_ok]
  exact congrArg Act.outcome (finish_ok hpc _ _)

end Sys2Proof.Machine
end

section
/-! PROOFS. The overflows (10_state.md R16; 40_add_mul.md R69 to R71): a result or a program counter out of range, under
either OVERFLOW_POLICY. -/

namespace Sys2Proof.Machine

theorem finish_refuse {p : Params} (hp : p.overflowPolicy = .wrap) {t : Nat} (h : pcFits p t = false)
    (before after : State) : finish p t before after = .refuse .pcBeyondMax := by
  simp [finish, h, hp]

/-- Settles O33: the result does not pass the filter, which is asked before the write. -/
theorem overflowFaultsBeforeTheWrite : Obligations.OverflowFaultsBeforeTheWrite := by
  unfold Obligations.OverflowFaultsBeforeTheWrite
  intro s a b dst ha hb hd
  simp only [exec_eq_runInstr, runInstr]
  refine ⟨fun hr => ?_, fun hr => ?_, fun hr => ?_⟩
  · rw [runAdd, runStore_of_compute_raise params_memLimit ha hb hd (overflowFilter_raise rfl hr _)]
    rfl
  · rw [runMul, runStore_of_compute_raise params_memLimit ha hb hd (overflowFilter_raise rfl hr _)]
    rfl
  · rw [runArb_of_readable params_memLimit ha, overflowFilter_raise rfl hr]
    rfl

/-! ### A program counter beyond MAX_CELL -/

/-- The computation of an operation of the `rra` shape ends in a result, or in the overflow of OVERFLOW_POLICY = fault. -/
theorem runInstr_store {p : Params} {i : Instr} {a b dst : Operand} (hi : i ∈ storeForms a b dst) (s : State) :
    ∃ compute, runInstr p i s = runStore p compute a b dst s ∧
      ∀ x y u, (∃ r, compute x y u = .ok r u) ∨
        (p.overflowPolicy = .fault ∧ compute x y u = .raise .overflowFault u) := by
  have hfilter (x : Int) (u : State) : (∃ r, overflowFilter p x u = .ok r u) ∨
      (p.overflowPolicy = .fault ∧ overflowFilter p x u = .raise .overflowFault u) := by
    rcases overflowFilter_cases p x u with ⟨_, h⟩ | ⟨_, hp, h⟩ | ⟨_, _, _, _, h⟩
    exacts [.inl ⟨_, h⟩, .inr ⟨hp, h⟩, .inl ⟨_, h⟩]
  fin_cases hi
  · exact ⟨_, rfl, fun x y u => hfilter (x + y) u⟩
  · exact ⟨_, rfl, fun x y u => hfilter (x * y) u⟩
  · exact ⟨_, rfl, fun x y u => .inl ⟨_, rfl⟩⟩
  · exact ⟨_, rfl, fun x y u => .inl ⟨_, rfl⟩⟩

section
variable {p : Params} (hm : p.memLimit = none) {s : State} {a b dst : Operand}
include hm

theorem store_overflows (hp : p.overflowPolicy = .fault) {i : Instr} (hi : i ∈ storeForms a b dst)
    (ha : readable s a = true) (hb : readable s b = true) (hd : addressable s dst = true)
    (hpc : pcFits p (s.pc + 4) = false) :
    runInstr p i s = .raise .overflowFault (accessed s (storeReads s a b)) := by
  obtain ⟨compute, hrun, hc⟩ := runInstr_store hi s
  rw [hrun]
  rcases hc (readValue s a) (readValue s b) (accessed s (storeReads s a b)) with ⟨r, hr⟩ | ⟨_, hr⟩
  · rw [runStore_of_compute_ok hm ha hb hd hr, finish_raise hp hpc]
  · rw [runStore_of_compute_raise hm ha hb hd hr]

theorem store_refused (hp : p.overflowPolicy = .wrap) {i : Instr} (hi : i ∈ storeForms a b dst)
    (ha : readable s a = true) (hb : readable s b = true) (hd : addressable s dst = true)
    (hpc : pcFits p (s.pc + 4) = false) : runInstr p i s = .refuse .pcBeyondMax := by
  obtain ⟨compute, hrun, hc⟩ := runInstr_store hi s
  rw [hrun]
  rcases hc (readValue s a) (readValue s b) (accessed s (storeReads s a b)) with ⟨r, hr⟩ | ⟨hfault, _⟩
  · rw [runStore_of_compute_ok hm ha hb hd hr, finish_refuse hp hpc]
  · cases hp.symm.trans hfault

theorem arb_overflows (hp : p.overflowPolicy = .fault) (ha : readable s a = true) (hpc : pcFits p (s.pc + 2) = false) :
    runInstr p (.arb a) s = .raise .overflowFault (accessed s (readCells s 1 a)) := by
  rw [runInstr, runArb_of_readable hm ha]
  rcases overflowFilter_cases p (s.rb + readValue s a) (accessed s (readCells s 1 a)) with
    ⟨_, h⟩ | ⟨_, _, h⟩ | ⟨_, _, hw, _⟩
  · rw [h, bind_ok]
    exact finish_raise hp hpc _ _
  · rw [h, bind_raise]
  · cases hp.symm.trans hw

theorem arb_refused (hp : p.overflowPolicy = .wrap) (ha : readable s a = true) (hpc : pcFits p (s.pc + 2) = false) :
    runInstr p (.arb a) s = .refuse .pcBeyondMax := by
  rw [runInstr, runArb_of_readable hm ha]
  rcases overflowFilter_cases p (s.rb + readValue s a) (accessed s (readCells s 1 a)) with
    ⟨_, h⟩ | ⟨_, hf, _⟩ | ⟨_, _, _, _, h⟩
  · rw [h, bind_ok]
    exact finish_refuse hp hpc _ _
  · cases hp.symm.trans hf
  · rw [h, bind_ok]
    exact finish_refuse hp hpc _ _

end

/-- Settles O34: `finish` is the last action of every instruction that moves `pc`, and faults in the state before its
effect. -/
theorem pcBeyondMaxFaults : Obligations.PcBeyondMaxFaults := by
  unfold Obligations.PcBeyondMaxFaults
  intro s a b dst ha hb hd faults
  have faults_of_raise {i : Instr} {cells : List Nat}
      (h : runInstr params i s = .raise .overflowFault (accessed s cells)) : faults i :=
    ⟨_, le_extentOver s.extent cells, by rw [exec_eq_runInstr, h]; rfl⟩
  refine ⟨fun hpc i hi => ?_, fun hpc => ⟨?_, ?_, fun hq => ?_⟩, fun hpc => ?_, fun hpc => ?_⟩
  · exact faults_of_raise (store_overflows params_memLimit rfl hi ha hb hd hpc)
  · refine faults_of_raise (cells := readCells s 1 a) ?_
    rw [runInstr, runOutput_of_readable params_memLimit ha, if_neg (by simp), finish_raise rfl hpc]
  · exact faults_of_raise (arb_overflows params_memLimit rfl ha hpc)
  · obtain ⟨x, rest, hq⟩ := List.exists_cons_of_ne_nil hq
    exact faults_of_raise ((runInput_of_cons params_memLimit hd hq).trans (finish_raise rfl hpc _ _))
  · exact faults_of_raise ((runJump_of_address params_memLimit rfl ha hd).trans (finish_raise rfl hpc _ _))
  · exact faults_of_raise ((runJump_of_address params_memLimit rfl ha hd).trans (finish_raise rfl hpc _ _))

/-- Settles O35: `finish` is the last action of every instruction that moves `pc`. -/
theorem pcBeyondMaxRefusedUnderWrap : Obligations.PcBeyondMaxRefusedUnderWrap := by
  unfold Obligations.PcBeyondMaxRefusedUnderWrap
  intro p s a b dst hp hm ha hb hd refused
  refine ⟨fun hpc i hi => store_refused hm hp hi ha hb hd hpc,
    fun hpc => ⟨arb_refused hm hp ha hpc, fun hroom => ?_, fun hq => ?_⟩, fun hk => ⟨fun hpc => ?_, fun hpc => ?_⟩,
    fun hk hnonneg => ⟨fun hpc => ?_, fun hpc => ?_⟩⟩
  · exact (runOutput_of_readable hm ha).trans ((if_neg (by simp [hroom])).trans (finish_refuse hp hpc _ _))
  · obtain ⟨x, rest, hq⟩ := List.exists_cons_of_ne_nil hq
    exact (runInput_of_cons hm hd hq).trans (finish_refuse hp hpc _ _)
  · exact (runJump_of_address hm hk ha hd).trans (finish_refuse hp hpc _ _)
  · exact (runJump_of_address hm hk ha hd).trans (finish_refuse hp hpc _ _)
  all_goals
    exact (runJump_of_value hm hk ha hb).trans
      ((if_neg fun h => not_lt.mpr hnonneg h.2).trans (finish_refuse hp hpc _ _))

end Sys2Proof.Machine
end

section
/-! PROOFS. The faults of parameters (30_encoding.md R63, R64; 60_exceptions.md R111): the first parameter that has one
raises it, and a later one's is raised when those before it resolve. -/

namespace Sys2Proof.Machine

/-- Every instruction has one of the shapes of R53. -/
theorem instr_shape (i : Instr) :
    (∃ a b dst, i ∈ storeForms a b dst) ∨ (∃ dst, i = .input dst) ∨ (∃ a, i ∈ readForms a) ∨
      (∃ a target, i ∈ jumpForms a target) ∨ i = .hlt := by
  simpa using (exists_instr_iff (P := fun j => i = j)).mp ⟨i, rfl⟩

/-- The fault is raised with nothing but the extent changed. -/
def Raises (x : Act Unit) (s : State) (f : FaultKind) : Prop :=
  ∃ e, s.extent ≤ e ∧ x = .raise f { s with extent := e }

section
variable {p : Params} (hp : p.memLimit = none) {s : State} {f : FaultKind}
include hp

/-- A parameter with a fault raises it whatever the instruction does with its value. -/
theorem raises_of_fault {k : Nat} {kind : Kind} {o : Operand} (h : paramFault s.rb kind o = some f)
    (g : Int → State → Act Unit) : Raises ((operand p k kind o s).bind g) s f :=
  ⟨_, le_extentOver _ _, by rw [operand_fault hp k h, bind_raise]⟩

theorem operand_of_no_fault (k : Nat) {kind : Kind} {o : Operand} (h : paramFault s.rb kind o = none) :
    ∃ v e, s.extent ≤ e ∧ operand p k kind o s = .ok v { s with extent := e } := by
  rcases operand_cases p k kind o s with ⟨v, e, he, _, hok, _⟩ | ⟨_, _, _, hsome, _⟩ | ⟨hlimit, _⟩
  · exact ⟨v, e, he, hok⟩
  · cases h.symm.trans hsome
  · exact absurd hp hlimit

/-- The next parameter's turn comes when this one has no fault. -/
theorem raises_bind {k : Nat} {kind : Kind} {o : Operand} {g : Int → State → Act Unit}
    (hsome : ∀ f', paramFault s.rb kind o = some f' → f' = f)
    (hnone : paramFault s.rb kind o = none → ∀ v e, Raises (g v { s with extent := e }) { s with extent := e } f) :
    Raises ((operand p k kind o s).bind g) s f := by
  cases h : paramFault s.rb kind o with
  | some f' =>
    cases hsome f' h
    exact raises_of_fault hp h g
  | none =>
    obtain ⟨v, e, he, hok⟩ := operand_of_no_fault hp k h
    obtain ⟨e', he', hraise⟩ := hnone h v e
    exact ⟨e', le_trans he he', by rw [hok, bind_ok, hraise]⟩

theorem runInstr_raises_first_fault {i : Instr} (h : firstParamFault p i s.rb = some f) :
    Raises (runInstr p i s) s f := by
  rcases instr_shape i with ⟨a, b, dst, hi⟩ | ⟨dst, rfl⟩ | ⟨a, hi⟩ | ⟨a, target, hi⟩ | rfl
  · obtain ⟨compute, hrun, _⟩ := runInstr_store (p := p) hi s
    have hzip : (i.kinds p).zip i.operands = [(.read, a), (.read, b), (.address, dst)] := by fin_cases hi <;> rfl
    simp only [firstParamFault, hzip, List.findSome?_cons, List.findSome?_nil] at h
    rw [hrun]
    refine raises_bind hp (fun f' ha => by simpa [ha] using h) fun ha x e1 => ?_
    refine raises_bind hp (fun f' hb => by simpa [ha, hb] using h) fun hb y e2 => ?_
    refine raises_bind hp (fun f' hd => by simpa [ha, hb, hd] using h) fun hd => ?_
    simp only at hb hd
    simp [ha, hb, hd] at h
  · simp only [firstParamFault, Instr.kinds, Instr.operands, List.zip_cons_cons, List.zip_nil_left,
      List.findSome?_cons, List.findSome?_nil] at h
    refine raises_bind hp (fun f' hd => by simpa [hd] using h) fun hd => ?_
    simp [hd] at h
  · obtain ⟨g, hrun⟩ : ∃ g, runInstr p i s = (operand p 1 .read a s).bind g := by fin_cases hi <;> exact ⟨_, rfl⟩
    have hzip : (i.kinds p).zip i.operands = [(.read, a)] := by fin_cases hi <;> rfl
    simp only [firstParamFault, hzip, List.findSome?_cons, List.findSome?_nil] at h
    rw [hrun]
    refine raises_bind hp (fun f' ha => by simpa [ha] using h) fun ha => ?_
    simp [ha] at h
  · obtain ⟨taken, hrun⟩ : ∃ taken, runInstr p i s = runJump p taken a target s := by fin_cases hi <;> exact ⟨_, rfl⟩
    have hzip : (i.kinds p).zip i.operands = [(.read, a), (targetKind p, target)] := by fin_cases hi <;> rfl
    simp only [firstParamFault, hzip, List.findSome?_cons, List.findSome?_nil] at h
    rw [hrun]
    refine raises_bind hp (fun f' ha => by simpa [ha] using h) fun ha x e1 => ?_
    refine raises_bind hp (fun f' ht => by simpa [ha, ht] using h) fun ht => ?_
    simp only at ht
    simp [ha, ht] at h
  · cases h

end

/-- Settles O16: the parameters before the first with a fault resolve. -/
theorem firstParameterFaultIsRaised : Obligations.FirstParameterFaultIsRaised := by
  unfold Obligations.FirstParameterFaultIsRaised
  intro i s f h
  obtain ⟨e, he, hraise⟩ := runInstr_raises_first_fault params_memLimit h
  exact ⟨e, he, by rw [exec_eq_runInstr, hraise]; rfl⟩

theorem kinds_length (p : Params) (i : Instr) : (i.kinds p).length = i.operands.length := by
  cases i <;> rfl

/-- A parameter that faults whatever its kind, with no fault before it, has the first fault. -/
theorem firstParamFault_of_noFaultBefore {p : Params} {i : Instr} {rb : Int} {k : Nat} {o : Operand} {f : FaultKind}
    (ho : i.operands[k]? = some o) (hbefore : noFaultBefore p i rb k = true)
    (hfault : ∀ kind, paramFault rb kind o = some f) : firstParamFault p i rb = some f := by
  obtain ⟨hk, rfl⟩ := List.getElem?_eq_some_iff.mp ho
  have hlen : k < ((i.kinds p).zip i.operands).length := by simpa [kinds_length] using hk
  have hsplit : (i.kinds p).zip i.operands = ((i.kinds p).zip i.operands).take k ++
      ((i.kinds p).zip i.operands)[k] :: ((i.kinds p).zip i.operands).drop (k + 1) := by
    rw [List.cons_getElem_drop_succ, List.take_append_drop]
  refine List.findSome?_eq_some_iff.mpr ⟨_, _, _, hsplit, ?_, fun ko hko => ?_⟩
  · rw [List.getElem_zip]
    exact hfault _
  · exact Option.isNone_iff_eq_none.mp (List.all_eq_true.mp hbefore ko hko)

/-- Settles O13: a negative address is a fault of either kind of parameter. -/
theorem negativeAddressFaults : Obligations.NegativeAddressFaults := by
  unfold Obligations.NegativeAddressFaults
  intro i s k o ho hbefore hneg
  refine firstParameterFaultIsRaised i s _ (firstParamFault_of_noFaultBefore ho hbefore fun kind => ?_)
  rcases hneg with ⟨hm, hneg⟩ | ⟨hm, hneg⟩ <;> simp [paramFault, operandAddress, hm, hneg]

/-- Settles O17: a reserved mode is a fault of either kind of parameter. -/
theorem reservedModeFaults : Obligations.ReservedModeFaults := by
  unfold Obligations.ReservedModeFaults
  intro i s k d o ho hbefore hm
  refine firstParameterFaultIsRaised i s _ (firstParamFault_of_noFaultBefore ho hbefore fun kind => ?_)
  simp [paramFault, hm]

theorem paramFault_immediate_address (rb : Int) {o : Operand} (h : o.mode = .immediate) :
    paramFault rb .address o = some .invalidModeFault := by
  simp [paramFault, h]

/-- Settles O18: the parameters before the destination resolve, and its cell is fetched before its mode faults. -/
theorem immediateDestinationFaults : Obligations.ImmediateDestinationFaults := by
  unfold Obligations.ImmediateDestinationFaults
  intro s a b dst ha hb hm
  have hfault (k : Nat) (cells : List Nat) : operand params k .address dst (accessed s cells) =
      .raise .invalidModeFault (accessed s (cells ++ [s.pc + k])) := by
    rw [accessed_append]
    exact operand_fault params_memLimit k (paramFault_immediate_address _ hm)
  refine ⟨fun i hi => ?_, ?_, fun i hi => ?_⟩
  · obtain ⟨compute, hrun, _⟩ := runInstr_store (p := params) hi s
    rw [exec_eq_runInstr, hrun, runStore_of_readable params_memLimit ha hb, hfault, bind_raise]
    rfl
  · rw [exec_eq_runInstr, runInstr, runInput, operand_fault params_memLimit 1 (paramFault_immediate_address _ hm),
      bind_raise]
    rfl
  · obtain ⟨taken, hrun⟩ : ∃ taken, runInstr params i s = runJump params taken a dst s := by
      fin_cases hi <;> exact ⟨_, rfl⟩
    rw [exec_eq_runInstr, hrun, runJump_of_readable params_memLimit ha, targetKind, params_jumpTargetKind]
    simp only [hfault, bind_raise]
    rfl

end Sys2Proof.Machine
end

section
/-! PROOFS. A store into the next instruction (20_memory.md R47): the next fetch reads the tape as the store left it. -/

namespace Sys2Proof.Machine

theorem nextCells_getElem? {k : Nat} (hk : k < 4) (t : State) :
    (nextCells t)[k]? = some (Memory.read (t.pc + k) t.mem) := by
  match k, hk with
  | 0, _ | 1, _ | 2, _ | 3, _ => rfl

/-- What the next fetch sees of an instruction that has stored `v` into the tape at `addr`, one of its four cells. -/
theorem next_fetch_sees_store {s t : State} {i : Instr} {k : Nat} {addr v : Int} (hwf : Memory.wf s.mem = true)
    (hk : k < 4) (haddr : addr = ((s.pc + i.length + k : Nat) : Int)) (hexec : exec i s = .next t)
    (hpc : t.pc = s.pc + i.length) (hmem : t.mem = Memory.write addr.toNat v s.mem) (hrunning : running t = running s) :
    ∃ t, exec i s = .next t ∧ t.pc = s.pc + i.length ∧ (nextCells t)[k]? = some v ∧
      ∀ j rest, decode params.strictDecode (nextCells t) = .ok (j, rest) →
        fetchDecode params t = .ok j { t with extent := max t.extent (t.pc + 1) } ∧
        (running s = true → step t = exec j { t with extent := max t.extent (t.pc + 1) }) := by
  refine ⟨t, hexec, hpc, ?_, fun j rest hd => ⟨fetchDecode_of_decode_ok params_memLimit hd,
    fun hr => stepRunsTheDecodedInstruction t j rest (hrunning.trans hr) hd⟩⟩
  rw [nextCells_getElem? hk, hmem, hpc, haddr, Int.toNat_natCast, read_write_self hwf]

/-- Settles O14: each of the five instructions completes in a state whose tape is the old one with `v` written. -/
theorem storeIsSeenByNextFetch : Obligations.StoreIsSeenByNextFetch := by
  unfold Obligations.StoreIsSeenByNextFetch
  intro s a b dst k hwf hk seen
  have seen_of_store {i : Instr} {v : Int} (hi : i ∈ storeForms a b dst)
      (hexec : exec i s = .next (afterStore s a b dst v)) : seen i v := by
    have hlen : i.length = 4 := by fin_cases hi <;> rfl
    exact fun haddr => next_fetch_sees_store hwf hk haddr hexec (congrArg (s.pc + ·) hlen.symm) rfl rfl
  refine ⟨fun h => ⟨fun hr => ?_, fun hr => ?_, ?_, ?_⟩, fun x rest hd hq hpc haddr => ?_⟩
  · exact seen_of_store (by simp) (addStoresTheSum s a b dst h hr)
  · exact seen_of_store (by simp) (mulStoresTheProduct s a b dst h hr)
  · exact seen_of_store (by simp) (ltStoresTheComparison s a b dst h)
  · exact seen_of_store (by simp) (eqStoresTheComparison s a b dst h)
  · exact next_fetch_sees_store hwf hk haddr (inputPopsTheOldestValue s dst x rest hd hq hpc) rfl rfl rfl

end Sys2Proof.Machine
end

section
/-! PROOFS. Changes of the state that the Engine does not look at: a step after such a change is the step with the change
after it. A grown extent is one (R14, D15), a value pushed by the host another as long as IN finds one waiting (R91), and
`in_closed` raised a third. -/

namespace Sys2Proof.Machine

/-- The change `g` leaves what an instruction reads, `inq` and `in_closed` apart, and commutes with what it writes. -/
structure Passive (g : State → State) : Prop where
  mem : ∀ s, (g s).mem = s.mem
  pc : ∀ s, (g s).pc = s.pc
  rb : ∀ s, (g s).rb = s.rb
  outq : ∀ s, (g s).outq = s.outq
  running : ∀ s, running (g s) = running s
  touch : ∀ a s, touch a (g s) = g (touch a s)
  setCell : ∀ a v s, setCell a v (g s) = g (setCell a v s)
  setPc : ∀ t s, setPc t (g s) = g (setPc t s)
  setRb : ∀ v s, setRb v (g s) = g (setRb v s)
  setHalted : ∀ s, setHalted (g s) = g (setHalted s)
  setOutq : ∀ q s, setOutq q (g s) = g (setOutq q s)
  takeFault : ∀ f s, takeFault f (g s) = g (takeFault f s)

/-- The same result with the change made to its state. -/
def Act.mapState {α : Type} (g : State → State) (x : Act α) : Act α :=
  match x with
  | .ok v s => .ok v (g s)
  | .raise f s => .raise f (g s)
  | .stall s => .stall (g s)
  | .refuse r => .refuse r

/-- The same report with the change made to its state. -/
def Report.mapState (g : State → State) : Report → Report
  | .stepped r s => .stepped r (g s)
  | .refused r => .refused r

/-- IN finds the same at the front of the queue after the change, and pops it with the change left over. -/
def PopsAlike (g : State → State) (u : State) : Prop :=
  (u.inq = [] ∧ (g u).inq = [] ∧ (g u).inClosed = u.inClosed) ∨
    ∃ x rest rest', u.inq = x :: rest ∧ (g u).inq = x :: rest' ∧ setInq rest' (g u) = g (setInq rest u)

/-! ### The three changes -/

/-- The extent grown over the cells below `c`. -/
def growExtent (c : Nat) (s : State) : State := { s with extent := max s.extent c }

/-- The value pushed at the back of `inq`. -/
def pushBack (v : Int) (s : State) : State := setInq (s.inq ++ [v]) s

theorem passive_growExtent (c : Nat) : Passive (growExtent c) := by
  constructor
  case touch => exact fun a s => by simp only [touch, growExtent, max_right_comm]
  all_goals intros; rfl

theorem passive_pushBack (v : Int) : Passive (pushBack v) := by
  constructor <;> intros <;> rfl

theorem passive_setInClosed : Passive setInClosed := by
  constructor <;> intros <;> rfl

theorem popsAlike_growExtent (c : Nat) (u : State) : PopsAlike (growExtent c) u := by
  cases hq : u.inq with
  | nil => exact .inl ⟨hq, hq, rfl⟩
  | cons x rest => exact .inr ⟨x, rest, rest, hq, hq, rfl⟩

theorem popsAlike_pushBack (v : Int) {u : State} (h : u.inq ≠ []) : PopsAlike (pushBack v) u := by
  obtain ⟨x, rest, hq⟩ := List.exists_cons_of_ne_nil h
  exact .inr ⟨x, rest, rest ++ [v], hq, congrArg (· ++ [v]) hq, rfl⟩

/-! ### The pieces of a step -/

theorem overflowFilter_passive (g : State → State) (p : Params) (r : Int) (s : State) :
    overflowFilter p r (g s) = (overflowFilter p r s).mapState g := by
  rcases overflowFilter_cases p r s with ⟨hr, h⟩ | ⟨hr, hp, h⟩ | ⟨w, hr, hp, hw, h⟩ <;> rw [h]
  · exact overflowFilter_ok hr _
  · exact overflowFilter_raise hp hr _
  · exact overflowFilter_wrap hw hp hr _

section
variable {g : State → State} (hg : Passive g)

theorem bind_mapState {α β : Type} {x : Act α} {k k' : α → State → Act β}
    (hk : ∀ v s, x = .ok v s → k v (g s) = (k' v s).mapState g) : (x.mapState g).bind k = (x.bind k').mapState g := by
  cases x with
  | ok v s => exact hk v s rfl
  | _ => rfl

include hg

theorem memRead_passive (p : Params) (addr : Int) (s : State) :
    memRead p addr (g s) = (memRead p addr s).mapState g := by
  simp only [memRead, hg.mem, hg.touch]
  split_ifs <;> rfl

theorem memWrite_passive (p : Params) (addr v : Int) (s : State) :
    memWrite p addr v (g s) = (memWrite p addr v s).mapState g := by
  simp only [memWrite, hg.touch, hg.setCell]
  split_ifs <;> rfl

theorem resolve_passive (p : Params) (kind : Kind) (o : Operand) (s : State) :
    resolve p kind o (g s) = (resolve p kind o s).mapState g := by
  cases hm : o.mode <;> cases kind <;> simp only [resolve, hm, hg.rb, memRead_passive hg]
  case position.address | relative.address => split_ifs <;> rfl
  all_goals rfl

theorem operand_passive (p : Params) (k : Nat) (kind : Kind) (o : Operand) (s : State) :
    operand p k kind o (g s) = (operand p k kind o s).mapState g := by
  rw [operand, hg.pc, memRead_passive hg]
  exact bind_mapState fun _ s1 _ => resolve_passive hg p kind o s1

theorem finish_passive (p : Params) (t : Nat) (before after : State) :
    finish p t (g before) (g after) = (finish p t before after).mapState g := by
  simp only [finish, hg.setPc]
  split_ifs
  · rfl
  · cases p.overflowPolicy <;> rfl

theorem runStore_passive (p : Params) {compute : Int → Int → State → Act Int}
    (hc : ∀ x y u, compute x y (g u) = (compute x y u).mapState g) (a b dst : Operand) (s : State) :
    runStore p compute a b dst (g s) = (runStore p compute a b dst s).mapState g := by
  rw [runStore, operand_passive hg]
  refine bind_mapState fun x s1 _ => ?_
  rw [operand_passive hg]
  refine bind_mapState fun y s2 _ => ?_
  rw [operand_passive hg]
  refine bind_mapState fun d s3 _ => ?_
  rw [hc]
  refine bind_mapState fun r s4 _ => ?_
  rw [memWrite_passive hg, hg.pc]
  exact bind_mapState fun _ s5 _ => finish_passive hg p _ s4 s5

theorem runJump_passive (p : Params) (taken : Int → Bool) (a target : Operand) (s : State) :
    runJump p taken a target (g s) = (runJump p taken a target s).mapState g := by
  rw [runJump, operand_passive hg]
  refine bind_mapState fun x s1 _ => ?_
  rw [operand_passive hg]
  refine bind_mapState fun t s2 _ => ?_
  rw [hg.pc]
  split_ifs
  · rfl
  · exact finish_passive hg p _ s2 s2
  · exact finish_passive hg p _ s2 s2

theorem runArb_passive (p : Params) (a : Operand) (s : State) :
    runArb p a (g s) = (runArb p a s).mapState g := by
  rw [runArb, operand_passive hg]
  refine bind_mapState fun x s1 _ => ?_
  rw [hg.rb, overflowFilter_passive g]
  refine bind_mapState fun r s2 _ => ?_
  rw [hg.pc, hg.setRb]
  exact finish_passive hg p _ s2 _

theorem runOutput_passive (p : Params) (a : Operand) (s : State) :
    runOutput p a (g s) = (runOutput p a s).mapState g := by
  rw [runOutput, operand_passive hg]
  refine bind_mapState fun x s1 _ => ?_
  rw [hg.pc, hg.outq, hg.setOutq]
  split_ifs
  · rfl
  · exact finish_passive hg p _ s1 _

theorem runInput_passive (p : Params) {dst : Operand} {s : State}
    (hpop : ∀ d u, operand p 1 .address dst s = .ok d u → PopsAlike g u) :
    runInput p dst (g s) = (runInput p dst s).mapState g := by
  rw [runInput, operand_passive hg]
  refine bind_mapState fun d s1 hd => ?_
  rcases hpop d s1 hd with ⟨hq, hgq, hcl⟩ | ⟨x, rest, rest', hq, hgq, hset⟩
  · simp only [hq, hgq, hcl]
    split_ifs <;> rfl
  · simp only [hq, hgq, hset, hg.pc, memWrite_passive hg]
    exact bind_mapState fun _ s2 _ => finish_passive hg p _ s1 s2

theorem runInstr_passive (p : Params) {i : Instr} {s : State}
    (hpop : ∀ dst d u, i = .input dst → operand p 1 .address dst s = .ok d u → PopsAlike g u) :
    runInstr p i (g s) = (runInstr p i s).mapState g := by
  cases i with
  | add a b dst => exact runStore_passive hg p (fun _ _ => overflowFilter_passive g p _) a b dst s
  | mul a b dst => exact runStore_passive hg p (fun _ _ => overflowFilter_passive g p _) a b dst s
  | lt a b dst => exact runStore_passive hg p (fun _ _ _ => rfl) a b dst s
  | eq a b dst => exact runStore_passive hg p (fun _ _ _ => rfl) a b dst s
  | input dst => exact runInput_passive hg p fun d u => hpop dst d u rfl
  | output a => exact runOutput_passive hg p a s
  | jnz a target => exact runJump_passive hg p _ a target s
  | jz a target => exact runJump_passive hg p _ a target s
  | arb a => exact runArb_passive hg p a s
  | hlt => exact congrArg (Act.ok ()) (hg.setHalted s)

theorem fetchDecode_passive (p : Params) (s : State) :
    fetchDecode p (g s) = (fetchDecode p s).mapState g := by
  have hcells : operandCells (g s) = operandCells s := by simp only [operandCells, hg.mem, hg.pc]
  rw [fetchDecode, hg.pc, memRead_passive hg, hcells]
  refine bind_mapState fun w s1 _ => ?_
  cases decode p.strictDecode (w :: operandCells s) <;> rfl

theorem report_mapState (x : Act Unit) : (x.mapState g).report = x.report.mapState g := by
  cases x with
  | raise f s => exact congrArg (Report.stepped _) (hg.takeFault f s)
  | _ => rfl

/-- The step after the change, for a change that every IN pops alike. -/
theorem stepReport_passive (p : Params) {s : State}
    (hpop : running s = true → ∀ dst s1 d u, fetchDecode p s = .ok (.input dst) s1 →
      operand p 1 .address dst s1 = .ok d u → PopsAlike g u) : stepReport p (g s) = (stepReport p s).mapState g := by
  rw [stepReport, stepReport, hg.running]
  split_ifs with hr
  · rw [← report_mapState hg, fetchDecode_passive hg]
    refine congrArg Act.report (bind_mapState fun i s1 hi => ?_)
    exact runInstr_passive hg p fun dst d u hdst hd => hpop hr dst s1 d u (hdst ▸ hi) hd
  · rfl

end

/-! ### The extent (R14, D15) -/

theorem stepReport_growExtent (p : Params) (c : Nat) (s : State) :
    stepReport p (growExtent c s) = (stepReport p s).mapState (growExtent c) :=
  stepReport_passive (passive_growExtent c) p fun _ _ _ _ u _ _ => popsAlike_growExtent c u

theorem mapState_eq_stepped {g : State → State} {x : Report} {r : StepResult} {t : State}
    (h : x.mapState g = .stepped r t) : ∃ u, x = .stepped r u ∧ t = g u := by
  cases x <;> cases h
  exact ⟨_, rfl, rfl⟩

/-- Settles O15: both states are the one with extent 0 after its extent is grown. -/
theorem extentIsNotObservable : Obligations.ExtentIsNotObservable := by
  unfold Obligations.ExtentIsNotObservable
  intro s t e h
  have hgrow (c : Nat) : { s with extent := c } = growExtent c { s with extent := 0 } := by simp [growExtent]
  obtain ⟨r, hr⟩ := step_eq_next_iff.mp h
  rw [show s = growExtent s.extent { s with extent := 0 } from hgrow s.extent, stepReport_growExtent] at hr
  obtain ⟨u, hu, rfl⟩ := mapState_eq_stepped hr
  exact ⟨_, step_eq_next_iff.mpr ⟨r, by rw [hgrow e, stepReport_growExtent, hu]; rfl⟩⟩

/-- Settles O43: the state of the stall is the old one with the extent grown, and so is that of the next attempt. -/
theorem stalledStepChangesOnlyExtent : Obligations.StalledStepChangesOnlyExtent := by
  unfold Obligations.StalledStepChangesOnlyExtent
  intro p s t h
  obtain ⟨e, he, rfl⟩ := stepReport_stalled h
  refine ⟨rfl, he, ?_⟩
  have hgrow : { s with extent := e } = growExtent e s := by simp [growExtent, he]
  calc stepReport p { s with extent := e }
      = (stepReport p s).mapState (growExtent e) := by rw [hgrow, stepReport_growExtent]
    _ = .stepped .stalled { s with extent := e } := by rw [h]; simp [Report.mapState, growExtent]

/-! ### A push by the host (R91) -/

theorem fetchDecode_ok_state {p : Params} {s s1 : State} {i : Instr} (h : fetchDecode p s = .ok i s1) :
    ∃ e, s1 = { s with extent := e } := by
  rcases fetchDecode_cases p s with ⟨_, _, _, h'⟩ | ⟨_, _, h'⟩ | ⟨_, h'⟩ <;> cases h'.symm.trans h
  exact ⟨_, rfl⟩

theorem operand_ok_state {p : Params} {k : Nat} {kind : Kind} {o : Operand} {s u : State} {v : Int}
    (h : operand p k kind o s = .ok v u) : ∃ e, u = { s with extent := e } := by
  rcases operand_cases p k kind o s with ⟨_, e, _, _, h', _⟩ | ⟨_, _, _, _, h'⟩ | ⟨_, h'⟩ <;> cases h'.symm.trans h
  exact ⟨e, rfl⟩

theorem inq_length_of_done {p : Params} {i : Instr} {s t : State} (h : Done p s i t) : t.inq.length ≤ s.inq.length := by
  cases h with
  | input waiting => simp [waiting]
  | _ => exact le_rfl

/-- No step fills the input queue. -/
theorem inq_length_of_stepReport {p : Params} {s t : State} {r : StepResult} (h : stepReport p s = .stepped r t) :
    t.inq.length ≤ s.inq.length := by
  cases r with
  | idle =>
    obtain ⟨_, rfl⟩ := stepReport_idle h
    exact le_rfl
  | stalled =>
    obtain ⟨e, _, rfl⟩ := stepReport_stalled h
    exact le_rfl
  | faulted f =>
    obtain ⟨e, _, rfl⟩ := stepReport_faulted h
    exact le_rfl
  | done =>
    obtain ⟨i, _, _, hrun⟩ := runInstr_ok_of_stepReport_done h
    exact (inq_length_of_done (done_of_runInstr_ok hrun) :)

/-- A shorter queue has room where a longer one within its depth has. -/
theorem queueFull_of_length_le {depth : Option Nat} {q q' : List Int} (hfits : queueFits depth q = true)
    (hroom : queueFull depth q = false) (hlen : q'.length ≤ q.length) : queueFull depth q' = false := by
  cases depth with
  | none => rfl
  | some d =>
    simp only [queueFits, queueFull, decide_eq_true_eq, decide_eq_false_iff_not] at *
    omega

/-- Settles O52: only an IN that finds no value looks at what is pushed, and it stalls or starves. -/
theorem pushCommutesWithStep : Obligations.PushCommutesWithStep := by
  unfold Obligations.PushCommutesWithStep
  intro p v s s' t r hfits hpush h hstall hstarve
  obtain ⟨hv, hroom, rfl⟩ := pushInput_eq_some_iff.mp hpush
  have hpop (hr : running s = true) (dst : Operand) (s1 : State) (d : Int) (u : State)
      (hf : fetchDecode p s = .ok (.input dst) s1) (hd : operand p 1 .address dst s1 = .ok d u) :
      PopsAlike (pushBack v) u := by
    refine popsAlike_pushBack v fun hq => ?_
    rw [stepReport_of_fetch hr hf, runInstr, runInput_of_empty hd hq] at h
    split_ifs at h <;> cases h
    · exact hstarve rfl
    · exact hstall rfl
  refine ⟨pushBack v t, ?_, pushInput_eq_some_iff.mpr
    ⟨hv, queueFull_of_length_le hfits hroom (inq_length_of_stepReport h), rfl⟩⟩
  exact (stepReport_passive (passive_pushBack v) p hpop).trans (by rw [h]; rfl)

end Sys2Proof.Machine
end

section
/-! PROOFS. The derived status `waiting_input` (10_state.md R29), bounded runs (45_engine.md R90, R92) and the deadlock of a
ring (60_exceptions.md R124). -/

namespace Sys2Proof.Machine

/-! ### Waiting for input -/

/-- The machine is Running at an IN whose destination resolves, in `u`, and finds no value and the input open. -/
def WaitsAt (p : Params) (s : State) (dst : Operand) (s1 : State) (d : Int) (u : State) : Prop :=
  running s = true ∧ fetchDecode p s = .ok (.input dst) s1 ∧ operand p 1 .address dst s1 = .ok d u ∧
    u.inq = [] ∧ u.inClosed = false

theorem waitingInput_iff {p : Params} {s : State} :
    waitingInput p s = true ↔ ∃ dst s1 d u, WaitsAt p s dst s1 d u := by
  have hqueue {dst s1 d u} (hf : fetchDecode p s = .ok (.input dst) s1) (hd : operand p 1 .address dst s1 = .ok d u) :
      u.inq = s.inq ∧ u.inClosed = s.inClosed := by
    obtain ⟨_, rfl⟩ := fetchDecode_ok_state hf
    obtain ⟨_, rfl⟩ := operand_ok_state hd
    exact ⟨rfl, rfl⟩
  constructor
  · intro h
    simp only [waitingInput, Bool.and_eq_true] at h
    obtain ⟨hr, h⟩ := h
    split at h
    next dst s1 hf =>
      split at h
      next d u hd =>
        obtain ⟨hq, hcl⟩ := hqueue hf hd
        simp only [Bool.and_eq_true, List.isEmpty_iff, Bool.not_eq_true'] at h
        exact ⟨dst, s1, d, u, hr, hf, hd, hq.trans h.1, hcl.trans h.2⟩
      next => cases h
    next => cases h
  · rintro ⟨dst, s1, d, u, hr, hf, hd, hqu, hclu⟩
    obtain ⟨hq, hcl⟩ := hqueue hf hd
    simp [waitingInput, hr, hf, hd, ← hq, hqu, ← hcl, hclu]

theorem stepReport_of_waitsAt {p : Params} {s : State} {dst : Operand} {s1 : State} {d : Int} {u : State}
    (h : WaitsAt p s dst s1 d u) : stepReport p s = .stepped .stalled u := by
  obtain ⟨hr, hf, hd, hq, hcl⟩ := h
  rw [stepReport_of_fetch hr hf, runInstr, runInput_of_empty hd hq, if_neg (by simp [hcl])]
  rfl

theorem bind_eq_stall_iff {α β : Type} {x : Act α} {f : α → State → Act β} {t : State} :
    x.bind f = .stall t ↔ x = .stall t ∨ ∃ v s, x = .ok v s ∧ f v s = .stall t := by
  cases x <;> simp

theorem fetchDecode_ne_stall (p : Params) (s t : State) : fetchDecode p s ≠ .stall t := by
  rcases fetchDecode_cases p s with ⟨_, _, _, h⟩ | ⟨_, _, h⟩ | ⟨_, h⟩ <;> simp [h]

theorem operand_ne_stall (p : Params) (k : Nat) (kind : Kind) (o : Operand) (s t : State) :
    operand p k kind o s ≠ .stall t := by
  rcases operand_cases p k kind o s with ⟨_, _, _, _, h, _⟩ | ⟨_, _, _, _, h⟩ | ⟨_, h⟩ <;> simp [h]

theorem stepReport_stalled_iff {p : Params} {s t : State} :
    stepReport p s = .stepped .stalled t ↔
      running s = true ∧ ∃ i s1, fetchDecode p s = .ok i s1 ∧ runInstr p i s1 = .stall t := by
  constructor
  · intro h
    have hr : running s = true := running_of_ne_idle h (by simp)
    rw [stepReport, if_pos hr, report_eq_stalled_iff, bind_eq_stall_iff] at h
    exact ⟨hr, h.resolve_left (fetchDecode_ne_stall p s t)⟩
  · rintro ⟨hr, i, s1, hf, hrun⟩
    rw [stepReport_of_fetch hr hf, hrun]
    rfl

/-- IN stalls only where it has resolved its destination. -/
theorem operand_of_runInput_stall {p : Params} {dst : Operand} {s t : State} (h : runInput p dst s = .stall t) :
    ∃ d u, operand p 1 .address dst s = .ok d u := by
  obtain ⟨d, u, hd, _⟩ := (bind_eq_stall_iff.mp h).resolve_left (operand_ne_stall p 1 .address dst s t)
  exact ⟨d, u, hd⟩

/-- Settles O53: where OUT cannot stall only an IN does, for want of a value. -/
theorem waitingInputMeansTheStepStalls : Obligations.WaitingInputMeansTheStepStalls := by
  unfold Obligations.WaitingInputMeansTheStepStalls
  intro p s hdepth
  rw [waitingInput_iff]
  constructor
  · rintro ⟨dst, s1, d, u, h⟩
    exact ⟨u, stepReport_of_waitsAt h⟩
  · rintro ⟨t, h⟩
    obtain ⟨hr, i, s1, hf, hrun⟩ := stepReport_stalled_iff.mp h
    rcases runInstr_cases p i s1 with ⟨_, h'⟩ | ⟨_, _, _, h'⟩ | ⟨_, _, _, hstall⟩ | ⟨_, _, h'⟩
    case inr.inr.inl =>
      rcases hstall with ⟨dst, rfl, hq, hcl, _⟩ | ⟨a, _, hfull⟩
      · obtain ⟨d, u, hd⟩ := operand_of_runInput_stall hrun
        obtain ⟨e, rfl⟩ := operand_ok_state hd
        exact ⟨dst, s1, d, _, hr, hf, hd, hq, hcl⟩
      · simp [hdepth] at hfull
    all_goals cases h'.symm.trans hrun

/-! ### Deadlock -/

theorem ringDeadlocked_iff {p : Params} {ring : List State} :
    ringDeadlocked p ring = true ↔ ∀ s ∈ ring, waitingInput p s = true ∧ s.outq = [] := by
  simp [ringDeadlocked]

theorem waitsAt_growExtent {p : Params} {s : State} {dst : Operand} {s1 : State} {d : Int} {u : State} (c : Nat)
    (h : WaitsAt p s dst s1 d u) :
    WaitsAt p (growExtent c s) dst (growExtent c s1) d (growExtent c u) := by
  obtain ⟨hr, hf, hd, hq, hcl⟩ := h
  have hg := passive_growExtent c
  exact ⟨hr, by rw [fetchDecode_passive hg, hf]; rfl, by rw [operand_passive hg, hd]; rfl, hq, hcl⟩

/-- Closing the input of a machine that waits turns its next step into starvation (R107). -/
theorem stepReport_setInClosed_of_waitsAt {p : Params} {s : State} {dst : Operand} {s1 : State} {d : Int} {u : State}
    (h : WaitsAt p s dst s1 d u) :
    stepReport p (setInClosed s) =
      .stepped (.faulted .inputStarvationFault) (takeFault .inputStarvationFault (setInClosed u)) := by
  obtain ⟨hr, hf, hd, hq, _⟩ := h
  have hf' : fetchDecode p (setInClosed s) = .ok (.input dst) (setInClosed s1) := by
    rw [fetchDecode_passive passive_setInClosed, hf]
    rfl
  have hd' : operand p 1 .address dst (setInClosed s1) = .ok d (setInClosed u) := by
    rw [operand_passive passive_setInClosed, hd]
    rfl
  have hr' : running (setInClosed s) = true := (passive_setInClosed.running s).trans hr
  rw [stepReport_of_fetch hr' hf', runInstr, runInput_of_empty hd' hq,
    if_pos (show (setInClosed u).inClosed = true from rfl)]
  rfl

/-- Settles O59: the stalled machine waits with a larger extent as it did before. -/
theorem deadlockIsPermanent : Obligations.DeadlockIsPermanent := by
  unfold Obligations.DeadlockIsPermanent
  intro p ring k s hdead hs
  have hall := ringDeadlocked_iff.mp hdead
  obtain ⟨hwait, hout⟩ := hall s (List.mem_of_getElem? hs)
  obtain ⟨dst, s1, d, u, hat⟩ := waitingInput_iff.mp hwait
  refine ⟨⟨u, stepReport_of_waitsAt hat, ?_⟩, _, stepReport_setInClosed_of_waitsAt hat⟩
  obtain ⟨e, he, rfl⟩ := stepReport_stalled (stepReport_of_waitsAt hat)
  refine ⟨rfl, ringDeadlocked_iff.mpr fun t ht => ?_⟩
  rcases List.mem_or_eq_of_mem_set ht with ht | rfl
  · exact hall t ht
  · have hgrow : { s with extent := e } = growExtent e s := by simp [growExtent, he]
    rw [hgrow]
    exact ⟨waitingInput_iff.mpr ⟨_, _, _, _, waitsAt_growExtent e hat⟩, hout⟩

/-! ### Bounded runs -/

/-- A run from a state that is not Running has ended. -/
theorem runFor_of_not_running (p : Params) (n : Nat) {s : State} (h : running s = false) : runFor p n s = .ended s := by
  cases n with
  | zero => simp [runFor, h]
  | succ n => simp [runFor, stepReport_of_not_running p h]

/-- Settles O51: by induction on the bound; the step that ends the run leaves it Halted or Faulted. -/
theorem endedRunStaysEnded : Obligations.EndedRunStaysEnded := by
  unfold Obligations.EndedRunStaysEnded
  intro p n k s t h
  induction n generalizing s with
  | zero =>
    cases hr : running s
    · rw [runFor_of_not_running p 0 hr] at h
      cases h
      exact ⟨runFor_of_not_running p _ hr, hr⟩
    · simp [runFor, hr] at h
  | succ n ih =>
    rw [Nat.succ_add]
    cases hs : stepReport p s with
    | refused => simp [runFor, hs] at h
    | stepped r s' =>
      cases r <;> simp only [runFor, hs] at h ⊢
      case idle =>
        cases h
        obtain ⟨hr, rfl⟩ := stepReport_idle hs
        exact ⟨rfl, hr⟩
      case faulted f =>
        cases h
        obtain ⟨e, _, rfl⟩ := stepReport_faulted hs
        exact ⟨rfl, running_eq_false_iff.mpr (.inr (by simp))⟩
      case done =>
        split_ifs at h ⊢ with hhalted
        · cases h
          exact ⟨rfl, running_eq_false_of_halted hhalted⟩
        · exact ih s' h
      case stalled => exact ih s' h

end Sys2Proof.Machine
end

section
/-! PROOFS. The host's transactions and the wiring (46_io_channel.md, 70_reset_and_hazards.md section 1). -/

namespace Sys2Proof.Machine

theorem pcFits_zero (p : Params) : pcFits p 0 = true := by
  cases hw : p.width with
  | none => exact pcFits_of_width_none hw 0
  | some w => simp [pcFits, hw]

theorem queueFits_nil (depth : Option Nat) : queueFits depth [] = true := by
  cases depth <;> simp [queueFits]

theorem ok_of_reset {p : Params} {program : List Int} {padding : Nat} {s : State}
    (h : resetWith p program padding = some s) : State.Ok p s := by
  obtain ⟨hrange, rfl⟩ := resetWith_eq_some_iff.mp h
  have hinRange : Memory.inRange p (Memory.ofCells 0 program) = true :=
    List.all_eq_true.mpr fun c hc => List.all_eq_true.mp hrange _ (mem_ofCells hc).2
  have hbelow : Memory.below (program.length + padding) (Memory.ofCells 0 program) = true := by
    refine List.all_eq_true.mpr fun c hc => decide_eq_true ?_
    have := (mem_ofCells hc).1
    omega
  exact ⟨(ofCells_wf 0 program).1, hinRange, hbelow, pcFits_zero p, inCell_zero p, rfl, rfl, queueFits_nil _,
    queueFits_nil _, fun _ => rfl⟩

theorem ok_of_push {p : Params} {v : Int} {s s' : State} (hok : State.Ok p s) (h : pushInput p v s = some s') :
    State.Ok p s' := by
  obtain ⟨hv, hroom, rfl⟩ := pushInput_eq_some_iff.mp h
  obtain ⟨hwf, hrange, hbelow, hpc, hrb, hin, hout, hinFits, houtFits, hstop⟩ := hok
  exact ⟨hwf, hrange, hbelow, hpc, hrb, by simp [hin, hv], hout, queueFits_push hinFits hroom, houtFits, hstop⟩

theorem ok_of_pop {p : Params} {s : State} (hok : State.Ok p s) : State.Ok p (popOutput s).2 := by
  cases hq : s.outq with
  | nil =>
    rw [popOutput_of_nil hq]
    exact hok
  | cons x rest =>
    rw [popOutput_of_cons hq]
    obtain ⟨hwf, hrange, hbelow, hpc, hrb, hin, hout, hinFits, houtFits, hstop⟩ := hok
    rw [hq] at hout houtFits
    rw [List.all_cons, Bool.and_eq_true] at hout
    exact ⟨hwf, hrange, hbelow, hpc, hrb, hin, hout.2, hinFits, queueFits_pop houtFits, hstop⟩

/-- Settles O55: one lemma per transaction. -/
theorem hostTransactionsKeepInvariant : Obligations.HostTransactionsKeepInvariant := by
  unfold Obligations.HostTransactionsKeepInvariant
  exact fun p => ⟨fun _ _ _ => ok_of_reset, fun s hok => ⟨fun _ _ => ok_of_push hok, ok_of_pop hok, hok⟩⟩

/-- Settles O48: the reset with the empty Program. -/
theorem invariantHoldsAtReset : Obligations.InvariantHoldsAtReset := by
  unfold Obligations.InvariantHoldsAtReset
  exact ok_of_reset (program := []) (padding := 0) rfl

/-- Settles O56: a push is refused by its two checks, a pop by the empty queue. -/
theorem queuesAreFifo : Obligations.QueuesAreFifo := by
  unfold Obligations.QueuesAreFifo
  refine fun p s => ⟨fun v hv => ?_, fun v hv => ?_, popOutput_of_nil, fun x rest => popOutput_of_cons⟩
  · cases hq : queueFull p.inDepth s.inq <;> simp [pushInput, hv, hq, setInq]
  · simp [pushInput, hv]

/-- Settles O58: there was a value to pop, and the push was taken. -/
theorem transferMovesOneValue : Obligations.TransferMovesOneValue := by
  unfold Obligations.TransferMovesOneValue
  intro p a b a' b' h
  cases hq : a.outq with
  | nil => simp [transfer, popOutput_of_nil hq] at h
  | cons v rest =>
    simp only [transfer, popOutput_of_cons hq] at h
    split at h
    next => cases h
    next pushed hpush =>
      cases h
      obtain ⟨_, _, rfl⟩ := pushInput_eq_some_iff.mp hpush
      exact ⟨v, rfl, rfl, rfl⟩

/-- Settles O60: only entry `k` of the list is replaced. -/
theorem networkStepIsLocal : Obligations.NetworkStepIsLocal := by
  unfold Obligations.NetworkStepIsLocal
  intro p net after k r h
  unfold Network.stepAt at h
  split at h
  next => cases h
  next s hs =>
    split at h
    next r' t hstep =>
      cases h
      obtain ⟨hk, _⟩ := List.getElem?_eq_some_iff.mp hs
      refine ⟨rfl, List.length_set, fun j hj => List.getElem?_set_ne hj.symm, s, t, hs, hstep, ?_⟩
      exact List.getElem?_set_self hk
    next => cases h

end Sys2Proof.Machine
end
